-- ==== Sys2Proof/Word.lean ====
section
/-! DEFINITION. The two word types of the core: the 16-bit word, the only unit of memory, registers, stack and encoding (R6, R28), and the 8-bit byte of the two queues (R18). -/

namespace Sys2Proof

/-- The 16-bit unsigned word (R6, `WORD`; glossary of 00_scope.md). -/
abbrev Word := BitVec 16

/-- The 8-bit unit of input and output (R6, "I/O unit"; R18). -/
abbrev Byte := BitVec 8

end Sys2Proof
end

