-- ==== Sys2Proof/Config.lean ====
section
/-! DEFINITION. What the spec leaves to the implementation: the open parameter TRACE0 (R6, P1) and the unspecified contents (R27, R130, R131, U2, U3, P4), which are opaque free values.
The closed parameters of R6 (32 768 memory words, 8 registers, modulus 32 768, mask 0x7FFF) stand as numerals where the spec's pseudocode has them.
STACKCAP and QUEUECAP (P2, P3) keep the spec's default, unbounded: stack and queues are lists of any length (log entry 4). -/

namespace Sys2Proof

/-- TRACE0, the power-on value of `trace_enabled` (R6, R131, P1): OPEN in the spec, default `false`.
DESIGN CHOICE (log entry 3): the model takes the spec's default. -/
def Config.trace0 : Bool := false

/-- Free values: word number `k` of the `n`-th time the spec leaves the machine's contents unspecified
(R27, R130, R131, P4; log entry 6). No body: nothing can be proved of a value of it. -/
opaque Config.unspecifiedWord (n k : Nat) : Word

/-- Free values: the unspecified stack of the `n`-th unspecified machine (R130, R131; log entry 6). -/
opaque Config.unspecifiedStack (n : Nat) : List Word

/-- Free values: the unspecified queues (`k = 0` input, `k = 1` output) of the `n`-th unspecified machine
(R130, R131; log entry 6). -/
opaque Config.unspecifiedQueue (n k : Nat) : List Byte

end Sys2Proof
end

