-- ==== Sys2Proof/Machine/State.lean ====
section
/-! DEFINITION. The machine state as plain data: the ten elements of R25, the host's log stream (R65, R126), and the model's own counter of free draws; the stop reasons; and the state after reset. -/

namespace Sys2Proof.Machine

/-- Memory as a list of (word address, word) pairs in one canonical form (`Memory.wf`): addresses strictly
rising and below 32768, no listed word equal to what an unlisted address reads as. The key is the WORD
address: the architecture has no byte address (R28; log entry 1). -/
abbrev Memory := List (Nat × Word)

/-- The reasons a fault reports (R104), in the order of their codes 1..7. -/
inductive FaultReason where
  | unknownOpcode | invalidOperand | invalidRegister | invalidAddress | emptyStack
  | arithmeticFault | imageTooLarge
  deriving DecidableEq, Repr

/-- A fault being raised: the reason and the recorded word (R104; `raise F(info)` of 00_scope.md section 4). -/
structure FaultCause where
  reason : FaultReason
  info : Word
  deriving DecidableEq, Repr

/-- The status latch (R20). -/
inductive Status where
  /-- `UNLOADED`: no image; only `load` and `set_trace` are admitted. -/
  | unloaded
  /-- `RUN`: the next step fetches at `pc`. -/
  | run
  /-- `WAIT_INPUT`: the last step was an `in` that found the input queue empty. -/
  | waitInput
  /-- `HALTED`: a `halt` was executed. -/
  | halted
  /-- `FAULT`: a fault was raised. -/
  | fault
  deriving DecidableEq, Repr

/-- An entry of the host's log sink (R65, R126; decision D14: entries are tuples, their text is the host's). -/
inductive LogEntry where
  /-- `Trace(a, w, op[0..n-1])`: instruction address, opcode word, raw operand words (R65). -/
  | trace (a w : Word) (operands : List Word)
  /-- `FaultLog(reason, info)` (R126). -/
  | faultLog (reason : FaultReason) (info : Word)
  deriving DecidableEq, Repr

/-- The state of the machine (R25). -/
structure State where
  /-- `memory[0..32767]` (R17, R28). -/
  memory : Memory
  /-- `x[0..7]`, eight 16-bit slots (R10); that each holds at most 32767 (R11) is `StateInv`'s to say. -/
  regs : Vector Word 8
  /-- The program counter, 16 bits, a word address 0..32768 (R13, R15). -/
  pc : Word
  /-- The stack, TOP FIRST (the spec writes it bottom first), a storage of its own (R16). -/
  stack : List Word
  /-- `input_queue`, oldest byte first (R18). -/
  inq : List Byte
  /-- `output_queue`, oldest byte first (R18). -/
  outq : List Byte
  /-- `trace_enabled` (R19). -/
  traceEnabled : Bool
  /-- The status latch (R20). -/
  status : Status
  /-- `fault_reason`, meaningful only while `status` is `fault` (R21). -/
  faultReason : FaultReason
  /-- `fault_info`, meaningful only while `status` is `fault` (R21). -/
  faultInfo : Word
  /-- What the core has emitted to the host's log sink, oldest first (R65, R126): an output stream, not
  state of the spec's machine (R25); nothing reads it (log entry 5). -/
  logSink : List LogEntry
  /-- MODEL'S OWN: how many times the spec has left the machine's contents unspecified; the next free values
  are `Config.unspecified…` applied to it (log entry 6). -/
  draws : Nat
  deriving DecidableEq, Repr

/-- Why a step does not exist. A fault of the PROGRAM is not one of these: the step that raises it takes it
(`takeFault`) and answers a next state. -/
inductive Fault where
  /-- `step` in `HALTED`: stuck, the core has no step (R59, R140, U7). Raised by `step` only. Safe. -/
  | steppedWhenHalted
  /-- `step` in `FAULT`: stuck, the core has no step (R59, R117, U6). Raised by `step` only. Safe. -/
  | steppedWhenFaulted
  deriving DecidableEq, Repr

/-- Situations to which the model gives no meaning. -/
inductive Refusal where
  /-- An instruction without a meaning yet; raised by `exec`'s arms only (none is left). Safe. -/
  | notModelled (mnemonic : String)
  /-- `step`, `feed_input` or `drain_output` in `UNLOADED`: not admitted (R20, R59, R121, U2, U3). Raised by
  `step`, `feedInput` and `drainOutput`. Safe. -/
  | notLoaded
  deriving DecidableEq, Repr

/-- The machine right after reset, which is a successful `load` (R27), here of the empty image (R128: legal,
all-zero memory), with `trace_enabled` at its power-on value (R131). The fault record's value is the model's
(R27: any value until a fault writes it; log entry 2). -/
def State.reset : State where
  memory := []
  regs := Vector.replicate 8 0
  pc := 0
  stack := []
  inq := []
  outq := []
  traceEnabled := Config.trace0
  status := .run
  faultReason := .unknownOpcode
  faultInfo := 0
  logSink := []
  draws := 0

end Sys2Proof.Machine
end

