-- ==== Sys2Proof/Machine/Ops.lean ====
section
/-! DEFINITION. The named operations over memory, registers, stack and queues (R31, R73, R76), the named updates of State, the outcomes (R66, R104), taking a fault (R116) and, beside it, what alone leads out of one: the state a successful `load` makes (R117, R128). -/

namespace Sys2Proof.Machine

/-- What a step, a meaning and a host command answer. -/
abbrev Result := Host.Outcome State Fault Refusal

/-! ### Memory -/

/-- What an address that is not listed reads as: 0, for `load` zero-fills memory (R27, R128). -/
def Memory.unlisted : Word := 0

/-- The word at a word address (R31, `memory[addr]`). -/
def Memory.read : Memory → Nat → Word
  | [], _ => Memory.unlisted
  | (b, u) :: m, a => if a = b then u else Memory.read m a

/-- List `v` at address `a`, before the first higher address. -/
def Memory.insert : Memory → Nat → Word → Memory
  | [], a, v => [(a, v)]
  | (b, u) :: m, a, v => if a < b then (a, v) :: (b, u) :: m else (b, u) :: Memory.insert m a v

/-- Unlist address `a`. -/
def Memory.erase (m : Memory) (a : Nat) : Memory := m.filter fun cell => cell.1 != a

/-- `memory[a] <- v` (R31), keeping the canonical form. -/
def Memory.write (m : Memory) (a : Nat) (v : Word) : Memory :=
  if v = Memory.unlisted then m.erase a else (m.erase a).insert a v

/-- The canonical form from address `lo` on. -/
def Memory.wfFrom : Nat → Memory → Bool
  | _, [] => true
  | lo, (b, u) :: m => decide (lo ≤ b) && decide (b < 32768) && (u != Memory.unlisted) && Memory.wfFrom (b + 1) m

/-- The canonical form: addresses strictly rising and inside memory (R28), no listed word equal to what an
unlisted address reads as. -/
def Memory.wf (m : Memory) : Bool := Memory.wfFrom 0 m

/-- Memory holding `words` at `a`, `a+1`, … and 0 elsewhere. -/
def Memory.ofWordsAt : Nat → List Word → Memory
  | _, [] => []
  | a, w :: ws => if w = Memory.unlisted then Memory.ofWordsAt (a + 1) ws else (a, w) :: Memory.ofWordsAt (a + 1) ws

/-- Memory after `load`: the image at address 0 upward, 0 above it (R128). -/
def Memory.ofImage (image : List Word) : Memory := Memory.ofWordsAt 0 image

/-- The words at `a`, `a+1`, …, as many as are asked for. -/
def Memory.window (m : Memory) : Nat → Nat → List Word
  | _, 0 => []
  | a, n + 1 => m.read a :: m.window (a + 1) n

/-- Store a sequence of words at ascending addresses. -/
def Memory.writeWords : Memory → Nat → List Word → Memory
  | m, _, [] => m
  | m, a, w :: ws => (m.write a w).writeWords (a + 1) ws

/-! ### Named updates of State -/

/-- State with another memory. -/
def State.withMemory (s : State) (m : Memory) : State := { s with memory := m }
/-- State with `x[k] <- v`. -/
def State.withReg (s : State) (k : Fin 8) (v : Word) : State := { s with regs := s.regs.set k v }
/-- State with `pc <- t`. -/
def State.withPc (s : State) (t : Word) : State := { s with pc := t }
/-- State with another stack. -/
def State.withStack (s : State) (k : List Word) : State := { s with stack := k }
/-- State with another input queue. -/
def State.withInq (s : State) (q : List Byte) : State := { s with inq := q }
/-- State with another output queue. -/
def State.withOutq (s : State) (q : List Byte) : State := { s with outq := q }
/-- State with another status latch. -/
def State.withStatus (s : State) (l : Status) : State := { s with status := l }
/-- State with `trace_enabled <- b`. -/
def State.withTrace (s : State) (b : Bool) : State := { s with traceEnabled := b }
/-- State with one more entry in the host's log sink. -/
def State.withLogged (s : State) (e : LogEntry) : State := { s with logSink := s.logSink ++ [e] }
/-- State with the fault record written (R21). -/
def State.withFaultRecord (s : State) (c : FaultCause) : State :=
  { s with faultReason := c.reason, faultInfo := c.info }

/-! ### Memory with its bound check, and the register file -/

/-- `MemRead(addr, 1)` (R31): the bound check, then the word. -/
def memRead (s : State) (addr : Nat) : Except FaultCause Word :=
  if addr > 32767 then .error ⟨.invalidAddress, BitVec.ofNat 16 addr⟩ else .ok (s.memory.read addr)

/-- `MemWrite(addr, 1, v)` (R31): the bound check, then the store. -/
def memWrite (s : State) (addr : Nat) (v : Word) : Except FaultCause State :=
  if addr > 32767 then .error ⟨.invalidAddress, BitVec.ofNat 16 addr⟩
  else .ok (s.withMemory (s.memory.write addr v))

/-- The content of general register `k` (R10): no register is hard-wired. -/
def State.reg (s : State) (k : Fin 8) : Word := s.regs[k]

/-! ### Stack (R73); the top is the head of the list -/

/-- `StackPush(v)`: never fails (R73). -/
def stackPush (s : State) (v : Word) : State := s.withStack (v :: s.stack)

/-- `StackPop()`: the word last pushed and the state without it, or `EmptyStack` (R73, R109). -/
def stackPop (s : State) : Except FaultCause (Word × State) :=
  match s.stack with
  | [] => .error ⟨.emptyStack, 0⟩
  | v :: rest => .ok (v, s.withStack rest)

/-! ### Byte queues (R76) -/

/-- `dequeue_input()`: the oldest byte, or none (R76). -/
def dequeueInput (s : State) : Option (Byte × State) :=
  match s.inq with
  | [] => none
  | b :: rest => some (b, s.withInq rest)

/-- `enqueue_input(byte)` (R76). -/
def enqueueInput (s : State) (b : Byte) : State := s.withInq (s.inq ++ [b])

/-- `enqueue_output(byte)`: at the tail; never fails (R76, R101). -/
def enqueueOutput (s : State) (b : Byte) : State := s.withOutq (s.outq ++ [b])

/-- `dequeue_output()`: the oldest byte, or none (R76). -/
def dequeueOutput (s : State) : Option (Byte × State) :=
  match s.outq with
  | [] => none
  | b :: rest => some (b, s.withOutq rest)

/-! ### Outcomes -/

/-- The four outcomes of a step (R66). -/
inductive StepOutcome where
  | continue | halted | needsInput | fault (reason : FaultReason)
  deriving DecidableEq, Repr

/-- The code of an outcome on a hardware port (R104, decision D8). -/
def StepOutcome.code (o : StepOutcome) : Nat :=
  match o with
  | .continue => 0
  | .halted => 1
  | .needsInput => 2
  | .fault _ => 3

/-- The code of a fault reason (R104, decision D8). -/
def FaultReason.code (r : FaultReason) : Nat :=
  match r with
  | .unknownOpcode => 1
  | .invalidOperand => 2
  | .invalidRegister => 3
  | .invalidAddress => 4
  | .emptyStack => 5
  | .arithmeticFault => 6
  | .imageTooLarge => 7

/-- The reason with a code (R104); codes that are no reason's give `unknownOpcode`, so that a free word makes a
free reason. -/
def FaultReason.ofCode (n : Nat) : FaultReason :=
  match n with
  | 2 => .invalidOperand
  | 3 => .invalidRegister
  | 4 => .invalidAddress
  | 5 => .emptyStack
  | 6 => .arithmeticFault
  | 7 => .imageTooLarge
  | _ => .unknownOpcode

/-- The outcome the step that led to this state reported (R66: the status latch follows the outcome);
none in `UNLOADED`, which no step leads to. -/
def State.outcome (s : State) : Option StepOutcome :=
  match s.status with
  | .unloaded => none
  | .run => some .continue
  | .waitInput => some .needsInput
  | .halted => some .halted
  | .fault => some (.fault s.faultReason)

/-! ### Taking a fault, and completing -/

/-- TAKING A FAULT (R116): `status <- FAULT`, the fault record is written (R21, R104), one entry goes to the log
sink (R126); nothing is saved, `pc` keeps the value it has, everything else stays. -/
def takeFault (s : State) (c : FaultCause) : State :=
  ((s.withStatus .fault).withFaultRecord c).withLogged (.faultLog c.reason c.info)

/-- There is no return from a fault; a faulted machine is recovered only by `load` (R117). This is the state a
successful `load(image)` leaves (R27, R128): memory, registers, stack, `pc`, queues and status are reset,
`trace_enabled` is kept, the fault record is unspecified (free values, log entry 6), the host's sink goes on. -/
def loadedState (image : List Word) (s : State) : State where
  memory := Memory.ofImage image
  regs := Vector.replicate 8 0
  pc := 0
  stack := []
  inq := []
  outq := []
  traceEnabled := s.traceEnabled
  status := .run
  faultReason := FaultReason.ofCode (Config.unspecifiedWord s.draws 0).toNat
  faultInfo := Config.unspecifiedWord s.draws 1
  logSink := s.logSink
  draws := s.draws + 1

/-- The instruction raised a fault: the step's outcome is `Fault` (R66). -/
def raise (s : State) (c : FaultCause) : Result := .next (takeFault s c)

/-- The instruction completed: outcome `Continue`, status `RUN` (R20, R66). -/
def proceed (s : State) : Result := .next (s.withStatus .run)

/-- Go on with the value of a check or primitive, or raise its fault in state `s`, which no mutation of the
instruction has touched (R68). -/
def orRaise {α : Type} (r : Except FaultCause α) (s : State) (k : α → Result) : Result :=
  match r with
  | .error c => raise s c
  | .ok v => k v

end Sys2Proof.Machine
end

