-- ==== Sys2Proof/Machine/Operands.lean ====
section
/-! DEFINITION. The operand forms (R47, R48) and the primitives that take raw operands: `Val`, `WriteReg`, `JumpTo`, `ReadMem`, `WriteMem` (R70 to R75). -/

namespace Sys2Proof.Machine

/-- A literal: 0..32767 (R47). -/
def isLit (w : Word) : Bool := decide (w.toNat ≤ 32767)

/-- A register reference: 32768..32775 (R47). -/
def isReg (w : Word) : Bool := decide (32768 ≤ w.toNat ∧ w.toNat ≤ 32775)

/-- The register a register reference names: `w - 32768 = w[2:0]` (00_scope.md section 4). -/
def regIdx (w : Word) : Fin 8 := ⟨w.toNat % 8, Nat.mod_lt _ (by decide)⟩

/-- `Val(w)` (R70): a literal is itself, a register reference is the register's content, anything else is
`InvalidOperand(w)`. One level: the content is not resolved again. -/
def val (s : State) (w : Word) : Except FaultCause Word :=
  if isLit w then .ok w
  else if isReg w then .ok (s.reg (regIdx w))
  else .error ⟨.invalidOperand, w⟩

/-- `WriteReg(d, w)` (R71): the destination check, then the resolution of the value word (in EVERY use, decision
D15), then the write. -/
def writeReg (s : State) (d w : Word) : Except FaultCause State :=
  if isReg d then
    match val s w with
    | .error c => .error c
    | .ok v => .ok (s.withReg (regIdx d) v)
  else .error ⟨.invalidRegister, d⟩

/-- `JumpTo(w)` (R72): no check beyond the operand's resolution. -/
def jumpTo (s : State) (w : Word) : Except FaultCause State :=
  match val s w with
  | .error c => .error c
  | .ok t => .ok (s.withPc t)

/-- `ReadMem(w)` (R74): resolve the address operand, then `MemRead` with its bound check. -/
def readMem (s : State) (w : Word) : Except FaultCause Word :=
  match val s w with
  | .error c => .error c
  | .ok addr => memRead s addr.toNat

/-- `WriteMem(wa, wv)` (R75): resolve the address operand, then the value operand, then `MemWrite`. -/
def writeMem (s : State) (wa wv : Word) : Except FaultCause State :=
  match val s wa with
  | .error c => .error c
  | .ok addr =>
    match val s wv with
    | .error c => .error c
    | .ok v => memWrite s addr.toNat v

end Sys2Proof.Machine
end

