-- ==== Sys2Proof/Machine/Flags.lean ====
section
/-! DEFINITION. The architecture has NO flags (R22). What stands in their place: the truth value a comparison writes to a register (R99, R100) and the zero test of the conditional jumps (R82, R83). -/

namespace Sys2Proof.Machine

/-- The value a comparison writes: 1 if it holds, else 0 (R22, R99, R100). -/
def truthWord (b : Bool) : Word := if b then 1 else 0

/-- `eq` (R99): of the resolved values. -/
def eqWord (x y : Word) : Word := truthWord (x == y)

/-- `gt` (R100): unsigned and strict (R91). -/
def gtWord (x y : Word) : Word := truthWord (decide (y.toNat < x.toNat))

/-- The condition of `jt` and `jf` (R82): any non-zero value counts as true. -/
def condHolds (c : Word) : Bool := c != 0

end Sys2Proof.Machine
end

