-- ==== Sys2Proof/Machine/Arithmetic.lean ====
section
/-! DEFINITION. The arithmetic and bitwise family (R91 to R98). On entry `pc` holds `a + 1 + argc`, and it is left there. -/

namespace Sys2Proof.Machine

/-- `(x + y) mod 32768`, exact and then reduced (R92, R93). -/
def addWord (x y : Word) : Word := BitVec.ofNat 16 ((x.toNat + y.toNat) % 32768)

/-- `(x * y) mod 32768`, the exact product and then reduced (R92, R94). -/
def mulWord (x y : Word) : Word := BitVec.ofNat 16 (x.toNat * y.toNat % 32768)

/-- `x mod y`, the unsigned remainder; `ArithmeticFault` when the divisor is 0 (R92, R95, R110). -/
def modWord (x y : Word) : Except FaultCause Word :=
  if y = 0 then .error ⟨.arithmeticFault, 0⟩ else .ok (BitVec.ofNat 16 (x.toNat % y.toNat))

/-- `x & y` (R96). -/
def andWord (x y : Word) : Word := x &&& y

/-- `x | y` (R97). -/
def orWord (x y : Word) : Word := x ||| y

/-- `(~x) & 0x7FFF` (R98). -/
def notWord (x : Word) : Word := ~~~x &&& 0x7FFF

/-- The shape the three-operand instructions share: resolve `op1`, resolve `op2`, then write `op0` (R69, R93). -/
def writeBinary (f : Word → Word → Word) (d x y : Word) (s : State) : Result :=
  orRaise (val s x) s fun a => orRaise (val s y) s fun b => orRaise (writeReg s d (f a b)) s proceed

/-- `add` (R93). -/
def execAdd (d x y : Word) (s : State) : Result := writeBinary addWord d x y s

/-- `mul` (R94). -/
def execMul (d x y : Word) (s : State) : Result := writeBinary mulWord d x y s

/-- `mod` (R95): the operands, then the zero divisor, then the destination. -/
def execMod (d x y : Word) (s : State) : Result :=
  orRaise (val s x) s fun a => orRaise (val s y) s fun b =>
    orRaise (modWord a b) s fun r => orRaise (writeReg s d r) s proceed

/-- `and` (R96). -/
def execAnd (d x y : Word) (s : State) : Result := writeBinary andWord d x y s

/-- `or` (R97). -/
def execOr (d x y : Word) (s : State) : Result := writeBinary orWord d x y s

/-- `not` (R98). -/
def execNot (d x : Word) (s : State) : Result :=
  orRaise (val s x) s fun a => orRaise (writeReg s d (notWord a)) s proceed

end Sys2Proof.Machine
end

