-- ==== Sys2Proof/Machine/Comparison.lean ====
section
/-! DEFINITION. The comparison family (R99, R100). On entry `pc` holds `a + 4`, and it is left there. -/

namespace Sys2Proof.Machine

/-- `eq` (R99). -/
def execEq (d x y : Word) (s : State) : Result := writeBinary eqWord d x y s

/-- `gt` (R100). -/
def execGt (d x y : Word) (s : State) : Result := writeBinary gtWord d x y s

end Sys2Proof.Machine
end

