-- ==== Sys2Proof/Machine/Control.lean ====
section
/-! DEFINITION. The control family (R80 to R85). On entry `pc` holds `a + 1 + argc` (R64). -/

namespace Sys2Proof.Machine

/-- `halt` (R80): outcome `Halted`; `pc` keeps the provisional `a + 1` (decision D18). -/
def execHalt (s : State) : Result := .next (s.withStatus .halted)

/-- `jmp` (R81). -/
def execJmp (target : Word) (s : State) : Result := orRaise (jumpTo s target) s proceed

/-- `jt` (R82): the target is examined only when the jump is taken (decision D16). -/
def execJt (cond target : Word) (s : State) : Result :=
  orRaise (val s cond) s fun c => if condHolds c then orRaise (jumpTo s target) s proceed else proceed s

/-- `jf` (R83): the target is examined only when the jump is taken (decision D16). -/
def execJf (cond target : Word) (s : State) : Result :=
  orRaise (val s cond) s fun c => if condHolds c then proceed s else orRaise (jumpTo s target) s proceed

/-- `call` (R84): the target is resolved before the advanced `pc` is pushed (R68). -/
def execCall (target : Word) (s : State) : Result :=
  orRaise (val s target) s fun t => proceed ((stackPush s s.pc).withPc t)

/-- `ret` (R85): the popped word is the address, not resolved. -/
def execRet (s : State) : Result := orRaise (stackPop s) s fun p => proceed (p.2.withPc p.1)

end Sys2Proof.Machine
end

