-- ==== Sys2Proof/Machine/InOut.lean ====
section
/-! DEFINITION. Input, output and no-op (R101 to R103). On entry `pc` holds `a + 1 + argc`. -/

namespace Sys2Proof.Machine

/-- `out` (R101): bits 7..0 of the resolved value, at the tail of the output queue. -/
def execOut (v : Word) (s : State) : Result :=
  orRaise (val s v) s fun x => proceed (enqueueOutput s (x.setWidth 8))

/-- `in` (R102): with the input queue empty the provisional advance is undone (`pc <- a`, which is `pc - 2` here)
and the outcome is `NeedsInput`; the destination is examined only when a byte is there (decision D16), and the
byte stays in the queue if that check fails (R68). -/
def execIn (d : Word) (s : State) : Result :=
  match dequeueInput s with
  | none => .next ((s.withPc (s.pc - 2)).withStatus .waitInput)
  | some (b, t) => orRaise (writeReg t d (b.setWidth 16)) s proceed

/-- `noop` (R103). -/
def execNoop (s : State) : Result := proceed s

end Sys2Proof.Machine
end

