-- ==== Sys2Proof/Machine/StackMemory.lean ====
section
/-! DEFINITION. The stack, register-move and memory family (R86 to R90). On entry `pc` holds `a + 1 + argc`, and it is left there. -/

namespace Sys2Proof.Machine

/-- `push` (R86). -/
def execPush (v : Word) (s : State) : Result := orRaise (val s v) s fun x => proceed (stackPush s x)

/-- `pop` (R87): the empty-stack check, then the destination check; the popped word is resolved before it is
stored (R71). On a fault nothing is popped (R68). -/
def execPop (d : Word) (s : State) : Result :=
  orRaise (stackPop s) s fun p => orRaise (writeReg p.2 d p.1) s proceed

/-- `set` (R88): the destination check, then the value. -/
def execSet (d v : Word) (s : State) : Result := orRaise (writeReg s d v) s proceed

/-- `rmem` (R89): the address operand, then the destination check, then the resolution of the word read (R71). -/
def execRmem (d addr : Word) (s : State) : Result :=
  orRaise (readMem s addr) s fun m => orRaise (writeReg s d m) s proceed

/-- `wmem` (R90): the address operand, then the value operand. -/
def execWmem (addr v : Word) (s : State) : Result := orRaise (writeMem s addr v) s proceed

end Sys2Proof.Machine
end

