-- ==== Sys2Proof/Syntax.lean ====
section
/-! DEFINITION. The instruction set as syntax: one constructor of `Instr` per row of the opcode map (R50), its arguments the RAW operand words in the order `op0 op1 op2` (R45, R53: the window is read raw), and the 22 opcode names of the catalog (R77). -/

namespace Sys2Proof

/-- The instruction's identity, what the catalog's `decode` yields (R77): 22 names (R50).
`in_` is the spec's `in`, which is a keyword of Lean. -/
inductive Opcode where
  | halt | set | push | pop | eq | gt | jmp | jt | jf | add | mul | mod | and | or | not
  | rmem | wmem | call | ret | out | in_ | noop
  deriving DecidableEq, Repr

/-- An instruction with its raw operand words. `d` is a destination operand, the others are value operands
(R48, roles of R50). Any 16-bit word may stand in any operand: it is judged only when the instruction
evaluates it (R53). -/
inductive Instr where
  | halt
  | set (d v : Word)
  | push (v : Word)
  | pop (d : Word)
  | eq (d x y : Word)
  | gt (d x y : Word)
  | jmp (target : Word)
  | jt (cond target : Word)
  | jf (cond target : Word)
  | add (d x y : Word)
  | mul (d x y : Word)
  | mod (d x y : Word)
  | and (d x y : Word)
  | or (d x y : Word)
  | not (d x : Word)
  | rmem (d addr : Word)
  | wmem (addr v : Word)
  | call (target : Word)
  | ret
  | out (v : Word)
  | in_ (d : Word)
  | noop
  deriving DecidableEq, Repr

end Sys2Proof
end

