-- ==== Sys2Proof/Machine/Dispatch.lean ====
section
/-! DEFINITION. One arm per instruction: stage 4 of the step (R60), on a state whose `pc` already holds `a + 1 + argc` (R64). -/

namespace Sys2Proof.Machine

def exec (i : Instr) (s : State) : Host.Outcome State Fault Refusal :=
  match i with
  | .halt => Sys2Proof.Machine.execHalt s
  | .set d v => Sys2Proof.Machine.execSet d v s
  | .push v => Sys2Proof.Machine.execPush v s
  | .pop d => Sys2Proof.Machine.execPop d s
  | .eq d x y => Sys2Proof.Machine.execEq d x y s
  | .gt d x y => Sys2Proof.Machine.execGt d x y s
  | .jmp target => Sys2Proof.Machine.execJmp target s
  | .jt cond target => Sys2Proof.Machine.execJt cond target s
  | .jf cond target => Sys2Proof.Machine.execJf cond target s
  | .add d x y => Sys2Proof.Machine.execAdd d x y s
  | .mul d x y => Sys2Proof.Machine.execMul d x y s
  | .mod d x y => Sys2Proof.Machine.execMod d x y s
  | .and d x y => Sys2Proof.Machine.execAnd d x y s
  | .or d x y => Sys2Proof.Machine.execOr d x y s
  | .not d x => Sys2Proof.Machine.execNot d x s
  | .rmem d addr => Sys2Proof.Machine.execRmem d addr s
  | .wmem addr v => Sys2Proof.Machine.execWmem addr v s
  | .call target => Sys2Proof.Machine.execCall target s
  | .ret => Sys2Proof.Machine.execRet s
  | .out v => Sys2Proof.Machine.execOut v s
  | .in_ d => Sys2Proof.Machine.execIn d s
  | .noop => Sys2Proof.Machine.execNoop s

end Sys2Proof.Machine
end

