-- ==== Sys2Proof/WellFormed.lean ====
section
/-! DEFINITION. Operand roles as a static check (R47, R48): every destination operand is a register reference, every value operand a literal or a register reference. It is not a condition for decoding or for running: an ill-formed operand decodes, and faults only if the instruction evaluates it (R53). -/

namespace Sys2Proof

/-- A word a destination operand may be: a register reference 32768..32775 (R47, R48). -/
def WellFormed.dest (w : Word) : Bool := decide (32768 ≤ w.toNat ∧ w.toNat ≤ 32775)

/-- A word a value operand may be: a literal 0..32767 or a register reference 32768..32775 (R47, R48). -/
def WellFormed.value (w : Word) : Bool := decide (w.toNat ≤ 32775)

/-- Every operand is of the class its role asks for (R48, roles of R50). -/
def WellFormed (i : Instr) : Bool :=
  match i with
  | .halt | .ret | .noop => true
  | .set d v => WellFormed.dest d && WellFormed.value v
  | .push v | .out v => WellFormed.value v
  | .pop d | .in_ d => WellFormed.dest d
  | .jmp t | .call t => WellFormed.value t
  | .jt c t | .jf c t => WellFormed.value c && WellFormed.value t
  | .eq d x y | .gt d x y | .add d x y | .mul d x y | .mod d x y | .and d x y | .or d x y =>
      WellFormed.dest d && WellFormed.value x && WellFormed.value y
  | .not d x => WellFormed.dest d && WellFormed.value x
  | .rmem d p => WellFormed.dest d && WellFormed.value p
  | .wmem p v => WellFormed.value p && WellFormed.value v

end Sys2Proof
end

