-- ==== Sys2Proof/Decode.lean ====
section
/-! DEFINITION. The instruction catalog (R50, R51, R77 to R79), the decoder over a sequence of words, total and rejecting by name, and after it the encoder. The core decodes words, never bytes (R32). -/

namespace Sys2Proof

/-- Why a sequence of words is no instruction. -/
inductive DecodeError where
  /-- There is no opcode word. -/
  | noWord
  /-- The opcode word is none of 0..21 (R46, R52); it carries the word. -/
  | unknownOpcode (w : Word)
  /-- Fewer operand words follow than the opcode's argument count (R44, R63). -/
  | windowCut
  deriving DecidableEq, Repr

/-- The opcode map of R50, the ONE table of the model: opcode number and `argument_count` (R51).
The numbers 1..18, 20, 21 and all counts are the spec's own decisions D1, D2, D3. -/
def catalog (op : Opcode) : Word × Nat :=
  match op with
  | .halt => (0, 0)
  | .set => (1, 2)
  | .push => (2, 1)
  | .pop => (3, 1)
  | .eq => (4, 3)
  | .gt => (5, 3)
  | .jmp => (6, 1)
  | .jt => (7, 2)
  | .jf => (8, 2)
  | .add => (9, 3)
  | .mul => (10, 3)
  | .mod => (11, 3)
  | .and => (12, 3)
  | .or => (13, 3)
  | .not => (14, 2)
  | .rmem => (15, 2)
  | .wmem => (16, 2)
  | .call => (17, 1)
  | .ret => (18, 0)
  | .out => (19, 1)
  | .in_ => (20, 1)
  | .noop => (21, 0)

/-- The opcode word of an instruction (R50); all 16 bits of it (R46). -/
def Opcode.number (op : Opcode) : Word := (catalog op).1

/-- `argument_count` (R78): 0, 1, 2 or 3, fixed by the opcode (R44, R51). -/
def Opcode.argc (op : Opcode) : Nat := (catalog op).2

/-- The 22 opcodes in the order of their numbers. -/
def Opcode.all : List Opcode :=
  [.halt, .set, .push, .pop, .eq, .gt, .jmp, .jt, .jf, .add, .mul, .mod, .and, .or, .not,
   .rmem, .wmem, .call, .ret, .out, .in_, .noop]

/-- The catalog's `decode` (R77): total over 16-bit words, the whole word compared (R46). -/
def decodeOpcode (w : Word) : Option Opcode := Opcode.all.find? fun op => op.number == w

/-- `is_terminal` (R79): true only for `halt`. -/
def Opcode.isTerminal (op : Opcode) : Bool := op == .halt

/-- The instruction of an opcode and its raw operand words (R45); words past the argument count are not used. -/
def Opcode.build (op : Opcode) (a b c : Word) : Instr :=
  match op with
  | .halt => .halt
  | .set => .set a b
  | .push => .push a
  | .pop => .pop a
  | .eq => .eq a b c
  | .gt => .gt a b c
  | .jmp => .jmp a
  | .jt => .jt a b
  | .jf => .jf a b
  | .add => .add a b c
  | .mul => .mul a b c
  | .mod => .mod a b c
  | .and => .and a b c
  | .or => .or a b c
  | .not => .not a b
  | .rmem => .rmem a b
  | .wmem => .wmem a b
  | .call => .call a
  | .ret => .ret
  | .out => .out a
  | .in_ => .in_ a
  | .noop => .noop

/-- Operand word number `k` of a window, which holds it whenever `k` is below the argument count. -/
def operandAt (window : List Word) (k : Nat) : Word := (window[k]?).getD 0

/-- Read one instruction from the front of a sequence of words (R44, R55): the opcode word first, then its
operand window, raw (R53, R63). Answers the instruction and the words after it. -/
def decode (ws : List Word) : Except DecodeError (Instr × List Word) :=
  match ws with
  | [] => .error .noWord
  | w :: rest =>
    match decodeOpcode w with
    | none => .error (.unknownOpcode w)
    | some op =>
      if rest.length < op.argc then .error .windowCut
      else .ok (op.build (operandAt rest 0) (operandAt rest 1) (operandAt rest 2), rest.drop op.argc)

/-- The opcode of an instruction. -/
def Instr.opcode (i : Instr) : Opcode :=
  match i with
  | .halt => .halt
  | .set _ _ => .set
  | .push _ => .push
  | .pop _ => .pop
  | .eq _ _ _ => .eq
  | .gt _ _ _ => .gt
  | .jmp _ => .jmp
  | .jt _ _ => .jt
  | .jf _ _ => .jf
  | .add _ _ _ => .add
  | .mul _ _ _ => .mul
  | .mod _ _ _ => .mod
  | .and _ _ _ => .and
  | .or _ _ _ => .or
  | .not _ _ => .not
  | .rmem _ _ => .rmem
  | .wmem _ _ => .wmem
  | .call _ => .call
  | .ret => .ret
  | .out _ => .out
  | .in_ _ => .in_
  | .noop => .noop

/-- The raw operand words of an instruction, `op0` first (R45). -/
def Instr.operands (i : Instr) : List Word :=
  match i with
  | .halt | .ret | .noop => []
  | .push a | .pop a | .jmp a | .call a | .out a | .in_ a => [a]
  | .set a b | .jt a b | .jf a b | .not a b | .rmem a b | .wmem a b => [a, b]
  | .eq a b c | .gt a b c | .add a b c | .mul a b c | .mod a b c | .and a b c | .or a b c => [a, b, c]

/-- The words of an instruction: the opcode word, then the operand words at ascending addresses (R44, R45). -/
def encode (i : Instr) : List Word := i.opcode.number :: i.operands

/-- The words of a table word: word `k` is bits `16k+15 .. 16k`, bits from `nbits` on are 0, and there are
four words, the longest instruction's length (R44). -/
def tableWords (nbits w : Nat) : List Word :=
  let v := w % 2 ^ nbits
  [BitVec.ofNat 16 v, BitVec.ofNat 16 (v / 2 ^ 16), BitVec.ofNat 16 (v / 2 ^ 32), BitVec.ofNat 16 (v / 2 ^ 48)]

/-- The instruction the decoder reads from an instruction numbered as spec/opcode_table.json numbers it. -/
def decodeTableWord (nbits w : Nat) : Option Instr :=
  match decode (tableWords nbits w) with
  | .ok (i, _) => some i
  | .error _ => none

end Sys2Proof
end

