-- ==== Sys2Proof/Machine/Fetch.lean ====
section
/-! DEFINITION. Stages 1 to 4 of the step up to the semantics (R59 to R65): admission, opcode fetch and decode, operand window, provisional advance, trace. -/

namespace Sys2Proof.Machine

/-- The words a fetch at `pc` can reach: at most four (R44), none past the top of memory (R61, R63, no
wrap-around: R15). Reading them has no side effect (R35). -/
def wordsAtPc (s : State) : List Word := s.memory.window s.pc.toNat (min 4 (32768 - s.pc.toNat))

/-- The fault a failed decode at `pc` raises: no opcode word is `InvalidAddress(pc)` (R61), an undefined one is
`UnknownOpcode(w)` (R62), a window that crosses the top is `InvalidAddress(32768)` (R63). -/
def fetchCause (s : State) (e : DecodeError) : FaultCause :=
  match e with
  | .noWord => ⟨.invalidAddress, s.pc⟩
  | .unknownOpcode w => ⟨.unknownOpcode, w⟩
  | .windowCut => ⟨.invalidAddress, 32768⟩

/-- Stages 1 and 2 (R60): the instruction at `pc`, or the fetch-stage fault. -/
def fetch (s : State) : Except FaultCause Instr :=
  match decode (wordsAtPc s) with
  | .ok (i, _) => .ok i
  | .error e => .error (fetchCause s e)

/-- The address past the opcode and its operands, `a + 1 + argc` (R64). -/
def nextPc (i : Instr) (a : Word) : Word := a + 1 + BitVec.ofNat 16 i.opcode.argc

/-- Stage 3, the provisional advance (R64), and the trace entry of stage 4 (R65), which is emitted before the
instruction has any effect and holds the address before the advance. -/
def enter (i : Instr) (s : State) : State :=
  if s.traceEnabled then (s.withPc (nextPc i s.pc)).withLogged (.trace s.pc i.opcode.number i.operands)
  else s.withPc (nextPc i s.pc)

/-- Admission (R59): none where the core has a step, `RUN` and `WAIT_INPUT`; else how it stops. -/
def gate (s : State) : Option Result :=
  match s.status with
  | .run | .waitInput => none
  | .unloaded => some (.refused .notLoaded)
  | .halted => some (.fault .steppedWhenHalted)
  | .fault => some (.fault .steppedWhenFaulted)

/-- Where `placeFetchWord` stores: at `pc`, or at 0 where four words at `pc` would cross the top of memory. -/
def placeAddress (s : State) : Word := if s.pc.toNat ≤ 32764 then s.pc else 0

/-- The state whose next step fetches the given instruction (log entry 7): its words stored where that step
fetches, and the machine in a status in which it has a step. -/
def placeFetchWord (s : State) (nbits w : Nat) : State :=
  let t := (s.withPc (placeAddress s)).withMemory
    (s.memory.writeWords (placeAddress s).toNat (tableWords nbits w))
  match s.status with
  | .run | .waitInput => t
  | .unloaded | .halted | .fault => t.withStatus .run

end Sys2Proof.Machine
end

