-- ==== Sys2Proof/Machine/Step.lean ====
section
/-! DEFINITION. The step (R60): admission, fetch, provisional advance and trace, the instruction's meaning. -/

namespace Sys2Proof.Machine

/-- `Step()` (R60), one atomic transition (R7). A fetch-stage fault is taken with `pc` unchanged (R61 to R63). -/
def step (s : State) : Host.Outcome State Fault Refusal :=
  match gate s with
  | some stop => stop
  | none =>
    match fetch s with
    | .error c => raise s c
    | .ok i => exec i (enter i s)

/-- The state whose next step fetches and runs the instruction of the table word `w` (log entry 7). -/
def State.withFetchWord (s : State) (nbits w : Nat) : State := placeFetchWord s nbits w

end Sys2Proof.Machine
end

