-- ==== Sys2Proof/Machine/HostPort.lean ====
section
/-! DEFINITION. The host's commands but `step` (R121): `load`, `feed_input`, `drain_output`, `set_trace`, each atomic and between steps (R7, R39); `log` is the stream `State.logSink`. Beside them, at the interface only, the byte form of an image (R32, R58). -/

namespace Sys2Proof.Machine

/-- A machine of which nothing but the status is specified: after a failed `load` (R130). The contents are free
values, memory in canonical form (log entry 6). -/
def unconstructed (s : State) : State where
  memory := Memory.ofImage ((List.range 32768).map fun k => Config.unspecifiedWord s.draws (16 + k))
  regs := Vector.ofFn fun k => Config.unspecifiedWord s.draws (8 + k.val)
  pc := Config.unspecifiedWord s.draws 3
  stack := Config.unspecifiedStack s.draws
  inq := Config.unspecifiedQueue s.draws 0
  outq := Config.unspecifiedQueue s.draws 1
  traceEnabled := Config.unspecifiedWord s.draws 2 != 0
  status := .unloaded
  faultReason := FaultReason.ofCode (Config.unspecifiedWord s.draws 0).toNat
  faultInfo := Config.unspecifiedWord s.draws 1
  logSink := s.logSink
  draws := s.draws + 1

/-- The machine at power-on (R131): `UNLOADED`, `trace_enabled = TRACE0`, nothing else specified. -/
def powerOn : State := (unconstructed State.reset).withTrace Config.trace0

/-- `load(image)` (R128, R129): admitted in any status. Answers the state and, where it failed, the reason (R111). -/
def load (image : List Word) (s : State) : State × Option FaultReason :=
  if image.length > 32768 then (unconstructed s, some .imageTooLarge) else (loadedState image s, none)

/-- `feed_input(byte)` (R122): appends one byte, in any status but `UNLOADED`; changes nothing else. -/
def feedInput (b : Byte) (s : State) : Result :=
  match s.status with
  | .unloaded => .refused .notLoaded
  | .run | .waitInput | .halted | .fault => .next (enqueueInput s b)

/-- `drain_output()` (R123): removes and returns all queued output bytes, oldest first, in any status but
`UNLOADED`. -/
def drainOutput (s : State) : Host.Outcome (List Byte × State) Fault Refusal :=
  match s.status with
  | .unloaded => .refused .notLoaded
  | .run | .waitInput | .halted | .fault => .next (s.outq, s.withOutq [])

/-- `set_trace(bool)` (R121): in any status; nothing else changes. -/
def setTrace (b : Bool) (s : State) : State := s.withTrace b

/-- The host adapter's unpacking of an image file (R32, R58): two bytes a word, low byte first; none if the
number of bytes is odd. -/
def unpackImage : List Byte → Option (List Word)
  | [] => some []
  | [_] => none
  | lo :: hi :: rest =>
    match unpackImage rest with
    | none => none
    | some ws => some ((hi ++ lo) :: ws)

/-- The bytes of an image file (R58), low byte first. -/
def packImage : List Word → List Byte
  | [] => []
  | w :: ws => w.setWidth 8 :: (w >>> 8).setWidth 8 :: packImage ws

/-- The host's byte-level load (R58, conflict C8): none where the number of bytes is odd, and then the core's
`load` is never invoked. -/
def loadBytes (bytes : List Byte) (s : State) : Option (State × Option FaultReason) :=
  match unpackImage bytes with
  | none => none
  | some image => some (load image s)

end Sys2Proof.Machine
end

