-- ==== Sys2Proof/Safety.lean ====
section
/-! DEFINITION. What claims are stated in: the invariant of R26, the runs a host can make (R7, R139), and what a safe run is. -/

namespace Sys2Proof.Machine

/-- Every register holds a resolved value (R11, R26 item 3). -/
abbrev RegsResolved (s : State) : Prop := ∀ k : Fin 8, (s.reg k).toNat ≤ 32767

/-- The invariant of R26: `pc` is 0..32768 (R13), registers hold 0..32767 (R11), stack words are 0..32768 (R16),
and memory is in canonical form inside its 32 768 words (R17). -/
abbrev StateInv (s : State) : Prop :=
  s.pc.toNat ≤ 32768 ∧ RegsResolved s ∧ (s.stack.all fun w => w.toNat ≤ 32768) = true ∧ s.memory.wf = true

/-- The statuses in which the core has a step (R59). -/
abbrev Admitted (s : State) : Prop := s.status = .run ∨ s.status = .waitInput

/-- The machines a host can reach: from a successful `load`, by steps and by the host's commands (R7, R121). -/
inductive Reachable : State → Prop where
  | loaded (image : List Word) (s : State) (h : (load image s).2 = none) : Reachable (load image s).1
  | stepped {s t : State} (hs : Reachable s) (h : step s = .next t) : Reachable t
  | fed {s t : State} (b : Byte) (hs : Reachable s) (h : feedInput b s = .next t) : Reachable t
  | drained {s : State} {p : List Byte × State} (hs : Reachable s) (h : drainOutput s = .next p) : Reachable p.2
  | traced {s : State} (b : Bool) (hs : Reachable s) : Reachable (setTrace b s)

/-! ### The words statements are written in: R47, R70 and R116 as relations on plain numbers -/

/-- The destination word `d` names register `k` (R47). -/
abbrev NamesReg (d : Word) (k : Fin 8) : Prop := d.toNat = 32768 + k.val

/-- `d` is no register reference: a literal or an invalid word (R47, R107). -/
abbrev NotReg (d : Word) : Prop := d.toNat < 32768 ∨ 32775 < d.toNat

/-- An invalid operand word: 32776..65535 (R47). -/
abbrev InvalidWord (w : Word) : Prop := 32776 ≤ w.toNat

/-- The operand word `w` resolves to `v` (R70): a literal to itself, a register reference to the content. -/
abbrev Resolves (s : State) (w v : Word) : Prop :=
  (w.toNat ≤ 32767 ∧ v = w) ∨ ∃ k : Fin 8, NamesReg w k ∧ v = s.reg k

/-- The state a fault leaves (R116): the latch, the fault record and one entry in the log sink; nothing else. -/
def faulted (s : State) (r : FaultReason) (info : Word) : State :=
  { s with status := .fault, faultReason := r, faultInfo := info, logSink := s.logSink ++ [.faultLog r info] }

/-- The state in which the instruction `i` at `pc` executes (R64, R65): `pc` past its words, and its trace entry
in the log sink if tracing is on. -/
def entered (s : State) (i : Instr) : State :=
  { s with
    pc := s.pc + 1 + BitVec.ofNat 16 i.operands.length
    logSink := s.logSink ++ (if s.traceEnabled then [.trace s.pc i.opcode.number i.operands] else []) }

/-- The words of `i` stand in memory at `pc`, all inside memory (R44, R45). -/
abbrev StandsAtPc (s : State) (i : Instr) : Prop :=
  s.pc.toNat + (encode i).length ≤ 32768 ∧
    ∀ k : Fin 4, k.val < (encode i).length → (encode i)[k.val]? = some (s.memory.read (s.pc.toNat + k.val))

/-- The conditions on data under which a well-formed instruction does not fault (R134 for the first two): a word on
the stack for `pop` and `ret`, a divisor that does not resolve to 0 for `mod`, and for `rmem` a memory word that is no
invalid operand (R89). The other instructions need none. -/
def OnGoodData (i : Instr) (s : State) : Prop :=
  match i with
  | .pop _ | .ret => s.stack ≠ []
  | .mod _ _ y => ¬ Resolves s y 0
  | .rmem _ p => ∃ a, Resolves s p a ∧ ¬ InvalidWord (s.memory.read a.toNat)
  | .halt | .set _ _ | .push _ | .eq _ _ _ | .gt _ _ _ | .jmp _ | .jt _ _ | .jf _ _ | .add _ _ _ | .mul _ _ _
  | .and _ _ _ | .or _ _ _ | .not _ _ | .wmem _ _ | .call _ | .out _ | .in_ _ | .noop => True

/-- What a program must respect for its next step (R134), said of the state alone: the words of an instruction stand at
`pc`, its window inside memory, every operand of the class its role asks for (R48), on good data. -/
def MeetsR134 (s : State) : Prop := ∃ i, StandsAtPc s i ∧ WellFormed i = true ∧ OnGoodData i s

/-- A SAFE run of `n` steps: until it has ended with `halt` (R139) the core has a step and the program meets R134.
It says nothing of what a step answers. -/
def SafeRun : Nat → State → Prop
  | 0, _ => True
  | n + 1, s => s.status = .halted ∨ (Admitted s ∧ MeetsR134 s ∧ ∀ t, step s = .next t → SafeRun n t)

/-- The destination operand of an instruction, if it has one; it is always `op0` (R12). -/
def destination (i : Instr) : Option Word :=
  match i with
  | .set d _ | .pop d | .eq d _ _ | .gt d _ _ | .add d _ _ | .mul d _ _ | .mod d _ _ | .and d _ _ | .or d _ _
  | .not d _ | .rmem d _ | .in_ d => some d
  | .halt | .push _ | .jmp _ | .jt _ _ | .jf _ _ | .wmem _ _ | .call _ | .ret | .out _ | .noop => none

/-- The rule the three-operand instructions share (R93, R94, R96, R97, R99, R100): the opcode, the result written
to the destination, and the faults in their order. `pre` is `True`, or the invariant R11 where the result needs
it to be a literal. -/
def BinaryRule (mk : Word → Word → Word → Instr) (number : Word) (f : Nat → Nat → Nat)
    (pre : State → Prop) : Prop :=
  ∀ (s : State) (d x y : Word), encode (mk d x y) = [number, d, x, y] ∧
    (∀ a b k, pre s → Resolves s x a → Resolves s y b → NamesReg d k →
      exec (mk d x y) s =
        .next { s with regs := s.regs.set k (BitVec.ofNat 16 (f a.toNat b.toNat)), status := .run }) ∧
    (InvalidWord x → exec (mk d x y) s = .next (faulted s .invalidOperand x)) ∧
    (∀ a, Resolves s x a → InvalidWord y → exec (mk d x y) s = .next (faulted s .invalidOperand y)) ∧
    (∀ a b, Resolves s x a → Resolves s y b → NotReg d →
      exec (mk d x y) s = .next (faulted s .invalidRegister d))

end Sys2Proof.Machine
end

