-- ==== Sys2Proof/Certificates/Slice0/Obligations.lean ====
section
/-! DEFINITION. The statements for the provers, each `def Obligations.<Name> : Prop`. They are written in the plain words of Safety.lean (`Resolves`, `NamesReg`, `NotReg`, `InvalidWord`, `faulted`, `entered`), not in the model's own primitives. -/

open Sys2Proof Sys2Proof.Machine

/-! ### The encoding -/

/-- R44, R45, R55: decoding an encoded instruction gives it back, whatever words its operands are and whatever
follows it. -/
def Obligations.DecodeOfEncodeIsIdentity : Prop :=
  ∀ (i : Instr) (rest : List Word), decode (encode i ++ rest) = .ok (i, rest)

/-- R44, R45, R54: each sequence of words has one reading; encoding what was decoded gives the words back. -/
def Obligations.EncodeOfDecodeIsIdentity : Prop :=
  ∀ (ws rest : List Word) (i : Instr), decode ws = .ok (i, rest) → encode i ++ rest = ws

/-- R77: exactly the words 0..21 are opcodes, each of another opcode; any other word is rejected with that word. -/
def Obligations.ExactlyTwentyTwoWordsAreOpcodes : Prop :=
  (∀ w : Word, w.toNat ≤ 21 → ∃ op, decodeOpcode w = some op ∧ op.number = w) ∧
  (∀ w : Word, 21 < w.toNat → decodeOpcode w = none ∧ ∀ rest, decode (w :: rest) = .error (.unknownOpcode w)) ∧
  (∀ v w : Word, ∀ op, decodeOpcode v = some op → decodeOpcode w = some op → v = w)

/-- R50: words written out from the opcode map and R47's operand words decode to the instructions they stand for:
one of each family. -/
def Obligations.WrittenOutWordsDecode : Prop :=
  decode [0x0000] = .ok (.halt, []) ∧
  decode [0x0001, 0x8000, 0x04D2] = .ok (.set 32768 1234, []) ∧
  decode [0x0004, 0x8000, 0x0005, 0x8007] = .ok (.eq 32768 5 32775, []) ∧
  decode [0x0009, 0x8001, 0x7FFF, 0x0001] = .ok (.add 32769 32767 1, []) ∧
  decode [0x0010, 0x0064, 0x0005, 0x0000] = .ok (.wmem 100 5, [0]) ∧
  decode [0x0013, 0x0041] = .ok (.out 65, []) ∧
  decode [0x0015, 0x0113] = .ok (.noop, [0x0113]) ∧
  decode [0x0113, 0x0041] = .error (.unknownOpcode 0x0113) ∧
  decode [0x0009, 0x8001, 0x7FFF] = .error .windowCut

/-- R32, R58: an image file unpacked low byte first gives the words packed into it, and the byte-level load is
refused exactly when the number of bytes is odd. -/
def Obligations.ImageFileIsLittleEndian : Prop :=
  (∀ ws : List Word, unpackImage (packImage ws) = some ws) ∧
  (∀ (lo hi : Byte), unpackImage [lo, hi] = some [BitVec.ofNat 16 (lo.toNat + 256 * hi.toNat)]) ∧
  (∀ (bytes : List Byte) (s : State), loadBytes bytes s = none ↔ bytes.length % 2 = 1)

/-! ### The step protocol -/

/-- R60, R64, R65: where an instruction's words stand at `pc` and the core has a step, the step is the
instruction's meaning on the state with `pc` advanced past the words and the trace entry emitted. -/
def Obligations.StepRunsTheInstructionAtPc : Prop :=
  ∀ (s : State) (i : Instr), Admitted s → StandsAtPc s i → step s = exec i (entered s i)

/-- R61, R62, R63, R52, R105: the three fetch-stage faults, each leaving everything but the latch, the fault record
and the sink as it was, `pc` included: `pc` past memory is `InvalidAddress(pc)`; a word at `pc` that is none of 0..21
is `UnknownOpcode` of that word; an operand window past address 32767 is `InvalidAddress(32768)`. -/
def Obligations.FetchStageFaults : Prop :=
  ∀ s : State, Admitted s →
    (32768 ≤ s.pc.toNat → step s = .next (faulted s .invalidAddress s.pc)) ∧
    (s.pc.toNat ≤ 32767 → 21 < (s.memory.read s.pc.toNat).toNat →
      step s = .next (faulted s .unknownOpcode (s.memory.read s.pc.toNat))) ∧
    (∀ i : Instr, s.pc.toNat ≤ 32767 → s.memory.read s.pc.toNat = i.opcode.number →
      32767 < s.pc.toNat + i.operands.length → step s = .next (faulted s .invalidAddress 32768))

/-- R59: the core has a step exactly in `RUN` and `WAIT_INPUT`: there EVERY step answers a next state, faults
included. In the other statuses it stops (R117, R140, U2, U6, U7); the names of the stops are the model's (log
entry 8). -/
def Obligations.StepExistsExactlyWhenAdmitted : Prop :=
  ∀ s : State, (Admitted s → ∃ t, step s = .next t) ∧
    (s.status = .halted → step s = .fault .steppedWhenHalted) ∧
    (s.status = .fault → step s = .fault .steppedWhenFaulted) ∧
    (s.status = .unloaded → step s = .refused .notLoaded)

/-- The model's `withFetchWord` (log entry 7): the very next step runs the instruction the decoder reads from the
table word, from any state. -/
def Obligations.PlacedTableWordRunsNext : Prop :=
  ∀ (s : State) (nbits w : Nat) (i : Instr), decodeTableWord nbits w = some i →
    step (s.withFetchWord nbits w) = exec i (entered (s.withFetchWord nbits w) i)

/-- R66, R79, R20: the outcome an instruction reports, which the status latch holds: `Halted` exactly for `halt`,
`NeedsInput` exactly for an `in` with an empty input queue, otherwise `Fault` or `Continue`. -/
def Obligations.StatusFollowsOutcome : Prop :=
  ∀ (i : Instr) (s t : State), exec i s = .next t →
    (t.outcome = some .halted ↔ i = .halt) ∧
    (t.outcome = some .needsInput ↔ (∃ d, i = .in_ d) ∧ s.inq = []) ∧
    (i ≠ .halt → ¬ ((∃ d, i = .in_ d) ∧ s.inq = []) →
      t.outcome = some .continue ∨ ∃ r, t.outcome = some (.fault r))

/-- R67, R68, R116: a step that ends in `FAULT` leaves memory, registers, stack, queues and `trace_enabled` as they
were; `pc` is unchanged for a fetch-stage fault and is the provisional value for a fault inside an instruction;
the fault is recorded and logged, after the trace entry if there was one; and no step follows. -/
def Obligations.FaultsArePrecise : Prop :=
  ∀ s t : State, step s = .next t → t.status = .fault →
    ((∃ c, fetch s = .error c ∧ t = faulted s c.reason c.info) ∨
      ∃ i r info, fetch s = .ok i ∧ t = faulted (entered s i) r info) ∧
    ∀ u, step t ≠ .next u

/-- R24, R65, R102, R118, R127: a step that ends in `WAIT_INPUT` has changed nothing but the status latch and, with
tracing on, has emitted the trace entry of the `in`. -/
def Obligations.BlockedInChangesNothing : Prop :=
  ∀ s t : State, step s = .next t → t.status = .waitInput →
    ∃ d, t = { s with
      status := .waitInput
      logSink := s.logSink ++ (if s.traceEnabled then [.trace s.pc 20 [d]] else []) }

/-- R102, R112, R137: an `in` that blocked completes exactly once after the host feeds a byte and steps again: the
byte is consumed, the register written, `pc` moves past the `in`. -/
def Obligations.FedInCompletesOnce : Prop :=
  ∀ (s t : State) (d : Word) (k : Fin 8) (b : Byte), Admitted s → StandsAtPc s (.in_ d) → s.inq = [] →
    NamesReg d k → step s = .next t →
    ∃ u v, feedInput b t = .next u ∧ step u = .next v ∧
      v.reg k = BitVec.ofNat 16 b.toNat ∧ (∀ j, j ≠ k → v.reg j = s.reg j) ∧ v.inq = [] ∧
      v.pc = s.pc + 2 ∧ v.status = .run ∧ v.outq = s.outq ∧ v.stack = s.stack ∧ v.memory = s.memory

/-- R125: the rest of the machine behaves identically with tracing on or off, whatever the log sink holds. -/
def Obligations.TracingIsInvisible : Prop :=
  ∀ (s t : State) (b : Bool) (l : List LogEntry), step s = .next t →
    ∃ l', step { s with traceEnabled := b, logSink := l } = .next { t with traceEnabled := b, logSink := l' }

/-! ### Invariants and reset -/

/-- R26, R27: the machine right after reset (by log entry 12 the one with the empty image), and right after every
`load` that succeeds, meets the invariant. -/
def Obligations.ResetMeetsTheInvariant : Prop :=
  StateInv State.reset ∧ ∀ (image : List Word) (s : State), image.length ≤ 32768 → StateInv (load image s).1

/-- R11, R13, R15, R16, R17, R26, R7: every step and every host command keeps the invariant: `pc` at most 32768,
registers at most 32767, stack words at most 32768, memory in canonical form inside its 32 768 words. A `load` is one
that fits; after one that does not nothing is specified (R130). -/
def Obligations.EveryStepKeepsTheInvariant : Prop :=
  ∀ s : State, StateInv s →
    (∀ t, step s = .next t → StateInv t) ∧
    (∀ b t, feedInput b s = .next t → StateInv t) ∧
    (∀ p, drainOutput s = .next p → StateInv p.2) ∧
    (∀ b, StateInv (setTrace b s)) ∧
    ∀ image : List Word, image.length ≤ 32768 → StateInv (load image s).1

/-- R26: the invariant holds of every machine a host can reach, from a successful `load` onward, by steps and by
the host's commands. -/
def Obligations.EveryReachableMachineMeetsTheInvariant : Prop :=
  ∀ s : State, Reachable s → StateInv s

/-- R128, R129, R111, R27: what `load` does, in any state of the machine. -/
def Obligations.LoadResetsTheMachine : Prop :=
  ∀ (image : List Word) (s : State),
    (image.length ≤ 32768 →
      (load image s).2 = none ∧
      (∀ a, a < image.length → (load image s).1.memory.read a = image[a]?.getD 0) ∧
      (∀ a, image.length ≤ a → (load image s).1.memory.read a = 0) ∧
      (∀ k, (load image s).1.reg k = 0) ∧ (load image s).1.stack = [] ∧ (load image s).1.pc = 0 ∧
      (load image s).1.inq = [] ∧ (load image s).1.outq = [] ∧ (load image s).1.status = .run ∧
      (load image s).1.traceEnabled = s.traceEnabled) ∧
    (32768 < image.length →
      (load image s).2 = some .imageTooLarge ∧ (load image s).1.status = .unloaded)

/-- The MODEL'S CHOICE of reset (log entry 12): `State.reset` is the state a `load` of the EMPTY image leaves, but for
the fault record, whose value at reset is the model's too (log entry 2), for `trace_enabled`, which a `load` keeps, and
for the model's own counter and the sink (log entries 5, 6). The spec's part: the first step of a machine with an empty
image halts (R128, R36). -/
def Obligations.ResetIsALoadedMachine : Prop :=
  ∀ s : State,
    (∃ r info l n,
      (load [] s).1 = { State.reset with
        traceEnabled := s.traceEnabled, faultReason := r, faultInfo := info, logSink := l, draws := n }) ∧
    ∃ t, step (load [] s).1 = .next t ∧ t.status = .halted ∧ t.pc = 1

/-- R20, R130, R131, U2, U3: a machine at power-on or after a failed `load` is `UNLOADED`: it has no step, and the
queue commands are not admitted; a `load` that fits makes it run. -/
def Obligations.UnloadedMachineAdmitsOnlyLoad : Prop :=
  powerOn.status = .unloaded ∧ powerOn.traceEnabled = Config.trace0 ∧
  ∀ s : State, s.status = .unloaded →
    (∀ t, step s ≠ .next t) ∧ (∀ b t, feedInput b s ≠ .next t) ∧ (∀ p, drainOutput s ≠ .next p) ∧
    (∀ b, setTrace b s = { s with traceEnabled := b }) ∧
    ∀ image, image.length ≤ 32768 → Admitted (load image s).1

/-- R121, R122, R123: in any status but `UNLOADED`, `feed_input` appends one byte to the input queue and
`drain_output` removes and returns all queued output bytes, oldest first, and then none; neither changes anything
else, the status included. `set_trace` changes the trace flag alone, in any status. -/
def Obligations.HostCommandsChangeOnlyTheirOwn : Prop :=
  ∀ s : State,
    (s.status ≠ .unloaded →
      (∀ b, feedInput b s = .next { s with inq := s.inq ++ [b] }) ∧
      drainOutput s = .next (s.outq, { s with outq := [] }) ∧
      drainOutput { s with outq := [] } = .next ([], { s with outq := [] })) ∧
    ∀ b, setTrace b s = { s with traceEnabled := b }

/-! ### Memory -/

/-- R35, R38, R89, R90: `rmem` of an address returns the word the `wmem` before it stored there, and of every other
address what it returned before. -/
def Obligations.StoredWordIsReadBack : Prop :=
  ∀ (s t : State) (wa wv q d addr x : Word) (k : Fin 8), RegsResolved s → Resolves s wa addr → Resolves s wv x →
    NamesReg d k → exec (.wmem wa wv) s = .next t →
    (Resolves t q addr → exec (.rmem d q) t = .next { t with regs := s.regs.set k x }) ∧
    (∀ b v, Resolves t q b → b ≠ addr → Resolves s (s.memory.read b.toNat) v →
      exec (.rmem d q) t = .next { t with regs := s.regs.set k v })

/-- The canonical form (log entry 1) determines memory: two memories in it that read the same at the 32 768 addresses
(R28) are the same data. -/
def Obligations.CanonicalMemoriesAreDetermined : Prop :=
  ∀ m n : Memory, m.wf = true → n.wf = true → (∀ a, a < 32768 → m.read a = n.read a) → m = n

/-- R42, R136: after a `wmem`, the very next fetch of the stored address decodes the stored word. -/
def Obligations.StoredWordIsFetchedNext : Prop :=
  ∀ (s t : State) (wa wv v : Word), exec (.wmem wa wv) s = .next t → t.status = .run →
    Resolves s wa t.pc → Resolves s wv v →
    (21 < v.toNat → step t = .next (faulted t .unknownOpcode v)) ∧
    (∀ i : Instr, i.opcode.number = v → t.pc.toNat + i.operands.length ≤ 32767 →
      ∃ j : Instr, j.opcode = i.opcode ∧ step t = exec j (entered t j))

/-! ### What instructions leave unchanged -/

/-- R29: no instruction but `wmem` changes memory, and `wmem` changes no word but the one at the address its `op0`
resolves to. -/
def Obligations.OnlyWmemChangesMemory : Prop :=
  ∀ (i : Instr) (s t : State), exec i s = .next t →
    ((∀ p v, i ≠ .wmem p v) → ∀ a, t.memory.read a = s.memory.read a) ∧
    (∀ p v addr, i = .wmem p v → Resolves s p addr → ∀ a, a ≠ addr.toNat → t.memory.read a = s.memory.read a)

/-- R12: registers are written only through a destination operand: an instruction with none changes no register,
and one with a destination changes no other register, and none if the destination is no register reference. -/
def Obligations.OnlyTheDestinationRegisterChanges : Prop :=
  ∀ (i : Instr) (s t : State), exec i s = .next t →
    (destination i = none → t.regs = s.regs) ∧
    (∀ d, destination i = some d → NotReg d → t.regs = s.regs) ∧
    (∀ d k, destination i = some d → NamesReg d k → ∀ j, j ≠ k → t.reg j = s.reg j)

/-- R16, R30: only `push`, `pop`, `call` and `ret` change the stack, by one word at the top. -/
def Obligations.StackFrame : Prop :=
  ∀ (i : Instr) (s t : State), exec i s = .next t →
    ((∀ v, i ≠ .push v) → (∀ v, i ≠ .call v) → (∀ d, i ≠ .pop d) → i ≠ .ret → t.stack = s.stack) ∧
    (∀ v, i = .push v ∨ i = .call v → t.stack = s.stack ∨ ∃ w, t.stack = w :: s.stack) ∧
    (∀ d, i = .pop d ∨ i = .ret → t.stack = s.stack ∨ ∃ w, s.stack = w :: t.stack)

/-- R18, R30: only `in` takes from the input queue, one byte at its head; only `out` appends to the output queue,
one byte at its tail. -/
def Obligations.QueueFrame : Prop :=
  ∀ (i : Instr) (s t : State), exec i s = .next t →
    ((∀ d, i ≠ .in_ d) → t.inq = s.inq) ∧ ((∀ v, i ≠ .out v) → t.outq = s.outq) ∧
    (∀ d, i = .in_ d → t.inq = s.inq ∨ ∃ b, s.inq = b :: t.inq) ∧
    (∀ v, i = .out v → t.outq = s.outq ∨ ∃ b, t.outq = s.outq ++ [b])

/-- R19, R21, R125, R126: no instruction changes `trace_enabled` or the model's own counter, and the fault record
and the log sink change only where the instruction faults, the sink by the one fault entry. -/
def Obligations.ControlStateFrame : Prop :=
  ∀ (i : Instr) (s t : State), exec i s = .next t →
    t.traceEnabled = s.traceEnabled ∧ t.draws = s.draws ∧
    (t.status ≠ .fault → t.faultReason = s.faultReason ∧ t.faultInfo = s.faultInfo ∧ t.logSink = s.logSink) ∧
    (t.status = .fault → t.logSink = s.logSink ++ [.faultLog t.faultReason t.faultInfo])

/-- R14, R64: the advanced `pc` is kept by every instruction that is no control instruction, but for an `in` that
blocks, and by every instruction that faults. (A jump not taken keeps it too: `JtJumpsIfNonZero`,
`JfJumpsIfZero`.) -/
def Obligations.ProvisionalPcIsKept : Prop :=
  ∀ (i : Instr) (s t : State), exec i s = .next t →
    (t.status = .fault → t.pc = s.pc) ∧
    ((∀ g, i ≠ .jmp g) → (∀ c g, i ≠ .jt c g) → (∀ c g, i ≠ .jf c g) → (∀ g, i ≠ .call g) → i ≠ .ret →
      t.status ≠ .waitInput → t.pc = s.pc)

/-- R106 to R110: in a state that meets the invariant, which instructions raise which reasons and what they record;
`UnknownOpcode`, `InvalidAddress` and `ImageTooLarge` are raised by no instruction. -/
def Obligations.InstructionsRaiseOnlyTheirFaults : Prop :=
  ∀ (i : Instr) (s t : State), StateInv s → exec i s = .next t → t.status = .fault →
    (t.faultReason = .emptyStack ∧ t.faultInfo = 0 ∧ s.stack = [] ∧ (i = .ret ∨ ∃ d, i = .pop d)) ∨
    (t.faultReason = .arithmeticFault ∧ t.faultInfo = 0 ∧ ∃ d x y, i = .mod d x y ∧ Resolves s y 0) ∨
    (t.faultReason = .invalidRegister ∧ destination i = some t.faultInfo ∧ NotReg t.faultInfo) ∨
    (t.faultReason = .invalidOperand ∧ InvalidWord t.faultInfo ∧
      i ≠ .halt ∧ i ≠ .ret ∧ i ≠ .noop ∧ (∀ d, i ≠ .pop d) ∧ (∀ d, i ≠ .in_ d) ∧
      (t.faultInfo ∈ i.operands ∨ ∃ d p a, i = .rmem d p ∧ Resolves s p a ∧ t.faultInfo = s.memory.read a.toNat))

/-- R48, R106 to R110, R134: an instruction whose operands are of the classes their roles ask for faults, in a state
that meets the invariant, only on data: an empty stack, a zero divisor, or `rmem` of a memory word that is an
invalid operand. -/
def Obligations.WellFormedInstructionsFaultOnlyOnData : Prop :=
  ∀ (i : Instr) (s t : State), StateInv s → WellFormed i = true → exec i s = .next t → t.status = .fault →
    (s.stack = [] ∧ (i = .ret ∨ ∃ d, i = .pop d)) ∨ (∃ d x y, i = .mod d x y ∧ Resolves s y 0) ∨
    (∃ d p a, i = .rmem d p ∧ Resolves s p a ∧ InvalidWord (s.memory.read a.toNat))

/-- R134, R139, R48, R89: in a state that meets the invariant and in which the core has a step, an instruction whose
words stand at `pc` inside memory, whose operands are of the classes their roles ask for, and which finds a word on the
stack (`pop`, `ret`), a divisor that is not 0 (`mod`), a memory word that is no invalid operand (`rmem`), steps to a
state that is not `FAULT`. So a run whose program meets these conditions at each of its steps never faults: after each
number of steps it is in a state that is not `FAULT`, or it had ended with `halt`. -/
def Obligations.SafeRunsNeverFault : Prop :=
  (∀ (s : State) (i : Instr), StateInv s → Admitted s → StandsAtPc s i → WellFormed i = true → OnGoodData i s →
    ∃ t, step s = .next t ∧ t.status ≠ .fault) ∧
  ∀ (n : Nat) (s : State), StateInv s → s.status ≠ .fault → SafeRun n s → ∀ k, k ≤ n →
    (∃ t, Host.Core.run core k s = .next t ∧ t.status ≠ .fault) ∨
      Host.Core.run core k s = .fault Fault.steppedWhenHalted

/-! ### Control (R80 to R85); `s.pc` is the advanced pc, `a + 1 + argc` -/

/-- R80, R36: `halt` changes the status latch alone, leaves the advanced `pc`, and no step follows; a zero word is
`halt`. -/
def Obligations.HaltHalts : Prop :=
  encode .halt = [0] ∧
  (∀ s : State, exec .halt s = .next { s with status := .halted }) ∧
  (∀ s : State, Admitted s → s.pc.toNat ≤ 32767 → s.memory.read s.pc.toNat = 0 →
    ∃ t, step s = .next t ∧ t.status = .halted ∧ t.pc = s.pc + 1 ∧ ∀ u, step t ≠ .next u)

/-- R81; the target is inside memory where R11 holds. -/
def Obligations.JmpSetsPc : Prop :=
  ∀ (s : State) (g : Word), encode (.jmp g) = [6, g] ∧
    (∀ a, Resolves s g a → exec (.jmp g) s = .next { s with pc := a, status := .run }) ∧
    (∀ a, RegsResolved s → Resolves s g a → a.toNat ≤ 32767) ∧
    (InvalidWord g → exec (.jmp g) s = .next (faulted s .invalidOperand g))

/-- R82. -/
def Obligations.JtJumpsIfNonZero : Prop :=
  ∀ (s : State) (c g : Word), encode (.jt c g) = [7, c, g] ∧
    (∀ x a, Resolves s c x → x ≠ 0 → Resolves s g a → exec (.jt c g) s = .next { s with pc := a, status := .run }) ∧
    (Resolves s c 0 → exec (.jt c g) s = .next { s with status := .run }) ∧
    (InvalidWord c → exec (.jt c g) s = .next (faulted s .invalidOperand c)) ∧
    (∀ x, Resolves s c x → x ≠ 0 → InvalidWord g → exec (.jt c g) s = .next (faulted s .invalidOperand g))

/-- R83. -/
def Obligations.JfJumpsIfZero : Prop :=
  ∀ (s : State) (c g : Word), encode (.jf c g) = [8, c, g] ∧
    (∀ a, Resolves s c 0 → Resolves s g a → exec (.jf c g) s = .next { s with pc := a, status := .run }) ∧
    (∀ x, Resolves s c x → x ≠ 0 → exec (.jf c g) s = .next { s with status := .run }) ∧
    (InvalidWord c → exec (.jf c g) s = .next (faulted s .invalidOperand c)) ∧
    (Resolves s c 0 → InvalidWord g → exec (.jf c g) s = .next (faulted s .invalidOperand g))

/-- R84. -/
def Obligations.CallPushesAdvancedPcAndJumps : Prop :=
  ∀ (s : State) (g : Word), encode (.call g) = [17, g] ∧
    (∀ a, Resolves s g a →
      exec (.call g) s = .next { s with stack := s.pc :: s.stack, pc := a, status := .run }) ∧
    (InvalidWord g → exec (.call g) s = .next (faulted s .invalidOperand g))

/-- R85: the popped word is not resolved; a popped 32768 is the address 32768, where the next step faults. -/
def Obligations.RetPopsIntoPc : Prop :=
  encode .ret = [18] ∧ ∀ s : State,
    (∀ w rest, s.stack = w :: rest → exec .ret s = .next { s with stack := rest, pc := w, status := .run }) ∧
    (s.stack = [] → exec .ret s = .next (faulted s .emptyStack 0)) ∧
    (∀ rest, s.stack = 32768 :: rest →
      ∃ t, exec .ret s = .next t ∧ t.pc = 32768 ∧ step t = .next (faulted t .invalidAddress 32768))

/-- R84, R85: `call` then `ret` returns `pc` to the instruction after the call and leaves the stack as it was. -/
def Obligations.CallThenRetReturns : Prop :=
  ∀ (s t : State) (g : Word), exec (.call g) s = .next t → t.status = .run →
    ∀ p : Word, exec .ret { t with pc := p } = .next { s with status := .run }

/-! ### Stack, register move and memory (R86 to R90) -/

/-- R86. -/
def Obligations.PushPushesTheResolvedValue : Prop :=
  ∀ (s : State) (v : Word), encode (.push v) = [2, v] ∧
    (∀ x, Resolves s v x → exec (.push v) s = .next { s with stack := x :: s.stack, status := .run }) ∧
    (∀ x, RegsResolved s → Resolves s v x → x.toNat ≤ 32767) ∧
    (InvalidWord v → exec (.push v) s = .next (faulted s .invalidOperand v))

/-- R87: the popped word is resolved before it is stored (a popped 32768 stores the content of `r0`). -/
def Obligations.PopStoresTheTop : Prop :=
  ∀ (s : State) (d : Word), encode (.pop d) = [3, d] ∧
    (∀ w rest v k, s.stack = w :: rest → NamesReg d k → Resolves s w v →
      exec (.pop d) s = .next { s with stack := rest, regs := s.regs.set k v, status := .run }) ∧
    (s.stack = [] → exec (.pop d) s = .next (faulted s .emptyStack 0)) ∧
    (s.stack ≠ [] → NotReg d → exec (.pop d) s = .next (faulted s .invalidRegister d))

/-- R88; the value stored is at most 32767 where R11 holds. -/
def Obligations.SetStoresTheResolvedValue : Prop :=
  ∀ (s : State) (d v : Word), encode (.set d v) = [1, d, v] ∧
    (∀ x k, NamesReg d k → Resolves s v x →
      exec (.set d v) s = .next { s with regs := s.regs.set k x, status := .run }) ∧
    (∀ x, RegsResolved s → Resolves s v x → x.toNat ≤ 32767) ∧
    (NotReg d → exec (.set d v) s = .next (faulted s .invalidRegister d)) ∧
    (∀ k, NamesReg d k → InvalidWord v → exec (.set d v) s = .next (faulted s .invalidOperand v))

/-- R89: the word read is resolved again before it is stored; the order of the checks is the rule's. The last clause
is R31's bound check, which only a state no run reaches can fail. -/
def Obligations.RmemStoresTheResolvedMemoryWord : Prop :=
  ∀ (s : State) (d p : Word), encode (.rmem d p) = [15, d, p] ∧
    (∀ addr v k, Resolves s p addr → addr.toNat ≤ 32767 → NamesReg d k →
      Resolves s (s.memory.read addr.toNat) v →
      exec (.rmem d p) s = .next { s with regs := s.regs.set k v, status := .run }) ∧
    (InvalidWord p → exec (.rmem d p) s = .next (faulted s .invalidOperand p)) ∧
    (∀ addr, Resolves s p addr → addr.toNat ≤ 32767 → NotReg d →
      exec (.rmem d p) s = .next (faulted s .invalidRegister d)) ∧
    (∀ addr k, Resolves s p addr → addr.toNat ≤ 32767 → NamesReg d k →
      InvalidWord (s.memory.read addr.toNat) →
      exec (.rmem d p) s = .next (faulted s .invalidOperand (s.memory.read addr.toNat))) ∧
    (∀ addr, Resolves s p addr → 32767 < addr.toNat →
      exec (.rmem d p) s = .next (faulted s .invalidAddress addr))

/-- R90: the word at the address `op0` resolves to becomes what `op1` resolves to, which is at most 32767 where R11
holds; no other word and nothing else changes. The last clause is R31's bound check, which only a state no run
reaches can fail. -/
def Obligations.WmemStoresTheResolvedValue : Prop :=
  ∀ (s : State) (p v : Word), encode (.wmem p v) = [16, p, v] ∧
    (∀ addr x, Resolves s p addr → addr.toNat ≤ 32767 → Resolves s v x →
      exec (.wmem p v) s = .next { s with memory := s.memory.write addr.toNat x, status := .run } ∧
      (∀ a, (s.memory.write addr.toNat x).read a = if a = addr.toNat then x else s.memory.read a) ∧
      (RegsResolved s → x.toNat ≤ 32767)) ∧
    (InvalidWord p → exec (.wmem p v) s = .next (faulted s .invalidOperand p)) ∧
    (∀ addr, Resolves s p addr → InvalidWord v → exec (.wmem p v) s = .next (faulted s .invalidOperand v)) ∧
    (∀ addr x, Resolves s p addr → 32767 < addr.toNat → Resolves s v x →
      exec (.wmem p v) s = .next (faulted s .invalidAddress addr))

/-- R73, R86, R87: `push` then `pop` gives the same value back, the stack as it was. -/
def Obligations.PushThenPopReturnsTheValue : Prop :=
  ∀ (s t : State) (v x d : Word) (k : Fin 8), RegsResolved s → Resolves s v x → NamesReg d k →
    exec (.push v) s = .next t → exec (.pop d) t = .next { s with regs := s.regs.set k x, status := .run }

/-! ### Arithmetic, bitwise and comparison (R91 to R100) -/

/-- R93. -/
def Obligations.AddWritesTheSumModulo32768 : Prop :=
  BinaryRule .add 9 (fun x y => (x + y) % 32768) fun _ => True

/-- R94. -/
def Obligations.MulWritesTheProductModulo32768 : Prop :=
  BinaryRule .mul 10 (fun x y => x * y % 32768) fun _ => True

/-- R95: as the other three-operand instructions, with the zero divisor checked between the operands and the
destination. -/
def Obligations.ModWritesTheRemainder : Prop :=
  ∀ (s : State) (d x y : Word), encode (.mod d x y) = [11, d, x, y] ∧
    (∀ a b k, RegsResolved s → Resolves s x a → Resolves s y b → b ≠ 0 → NamesReg d k →
      exec (.mod d x y) s =
        .next { s with regs := s.regs.set k (BitVec.ofNat 16 (a.toNat % b.toNat)), status := .run }) ∧
    (InvalidWord x → exec (.mod d x y) s = .next (faulted s .invalidOperand x)) ∧
    (∀ a, Resolves s x a → InvalidWord y → exec (.mod d x y) s = .next (faulted s .invalidOperand y)) ∧
    (∀ a, Resolves s x a → Resolves s y 0 → exec (.mod d x y) s = .next (faulted s .arithmeticFault 0)) ∧
    (∀ a b, Resolves s x a → Resolves s y b → b ≠ 0 → NotReg d →
      exec (.mod d x y) s = .next (faulted s .invalidRegister d))

/-- R96. -/
def Obligations.AndWritesTheBitwiseAnd : Prop := BinaryRule .and 12 (fun x y => x &&& y) RegsResolved

/-- R97. -/
def Obligations.OrWritesTheBitwiseOr : Prop := BinaryRule .or 13 (fun x y => x ||| y) RegsResolved

/-- R98: for a resolved value the complement of the low 15 bits is `32767 - x`. -/
def Obligations.NotWritesTheFifteenBitComplement : Prop :=
  ∀ (s : State) (d x : Word), encode (.not d x) = [14, d, x] ∧
    (∀ a k, Resolves s x a → NamesReg d k →
      exec (.not d x) s =
        .next { s with regs := s.regs.set k (BitVec.ofNat 16 (32767 - a.toNat % 32768)), status := .run }) ∧
    (InvalidWord x → exec (.not d x) s = .next (faulted s .invalidOperand x)) ∧
    (∀ a, Resolves s x a → NotReg d → exec (.not d x) s = .next (faulted s .invalidRegister d))

/-- R92, R98: `not` applied twice gives the original value back. -/
def Obligations.NotTwiceIsIdentity : Prop :=
  ∀ (s t u : State) (d e x a : Word) (j k : Fin 8), RegsResolved s → Resolves s x a → NamesReg d j → NamesReg e k →
    exec (.not d x) s = .next t → exec (.not e d) t = .next u → u.reg k = a

/-- R99. -/
def Obligations.EqWritesEquality : Prop :=
  BinaryRule .eq 4 (fun x y => if x = y then 1 else 0) fun _ => True

/-- R100. -/
def Obligations.GtWritesUnsignedGreater : Prop :=
  BinaryRule .gt 5 (fun x y => if y < x then 1 else 0) fun _ => True

/-! ### Input, output, no-op (R101 to R103) -/

/-- R101. -/
def Obligations.OutQueuesTheLowByte : Prop :=
  ∀ (s : State) (v : Word), encode (.out v) = [19, v] ∧
    (∀ x, Resolves s v x →
      exec (.out v) s = .next { s with outq := s.outq ++ [BitVec.ofNat 8 (x.toNat % 256)], status := .run }) ∧
    (InvalidWord v → exec (.out v) s = .next (faulted s .invalidOperand v))

/-- R102: with a byte queued the oldest byte is zero-extended and written; with none the advance is undone and the
destination is not examined; a bad destination is a fault only with a byte queued, and the byte stays. -/
def Obligations.InReadsOneByteOrBlocks : Prop :=
  ∀ (s : State) (d : Word), encode (.in_ d) = [20, d] ∧
    (∀ b rest k, s.inq = b :: rest → NamesReg d k →
      exec (.in_ d) s =
        .next { s with inq := rest, regs := s.regs.set k (BitVec.ofNat 16 b.toNat), status := .run }) ∧
    (s.inq = [] → exec (.in_ d) s = .next { s with pc := s.pc - 2, status := .waitInput }) ∧
    (s.inq ≠ [] → NotReg d → exec (.in_ d) s = .next (faulted s .invalidRegister d))

/-- R103: `noop` changes nothing but that `pc` is past it, also at the top of memory, where `pc` becomes 32768 and
the next step faults (R61). -/
def Obligations.NoopOnlyCompletes : Prop :=
  encode .noop = [21] ∧ (∀ s : State, exec .noop s = .next { s with status := .run }) ∧
  ∀ s : State, Admitted s → s.pc.toNat ≤ 32767 → s.memory.read s.pc.toNat = 21 → s.traceEnabled = false →
    step s = .next { s with pc := s.pc + 1, status := .run } ∧
    (s.pc = 32767 → ∀ t, step s = .next t → step t = .next (faulted t .invalidAddress 32768))
end

