-- ==== Sys2Proof/Laws/Decode.lean ====
section
/-! SUPPORT. The catalog and the decoder: the 22 opcode words and what the decoder answers on each. -/

namespace Sys2Proof

/-- Each opcode's number selects that opcode (R77). -/
@[simp] theorem decodeOpcode_number (op : Opcode) : decodeOpcode op.number = some op := by
  cases op <;> decide

/-- Only an opcode's own number selects it. -/
theorem number_of_decodeOpcode {w : Word} {op : Opcode} (h : decodeOpcode w = some op) : op.number = w := by
  have := List.find?_some h
  simpa using this

theorem Opcode.mem_all (op : Opcode) : op ∈ Opcode.all := by cases op <;> decide

/-- The decoder on an opcode word whose window is complete. -/
theorem decode_cons {w : Word} {op : Opcode} (rest : List Word) (hw : decodeOpcode w = some op)
    (hn : op.argc ≤ rest.length) :
    decode (w :: rest) =
      .ok (op.build (operandAt rest 0) (operandAt rest 1) (operandAt rest 2), rest.drop op.argc) := by
  simp only [decode, hw, if_neg (Nat.not_lt.2 hn)]

/-- All the decoder can have read when it succeeds. -/
theorem decode_ok {ws rest : List Word} {i : Instr} (h : decode ws = .ok (i, rest)) :
    ∃ w tail op, ws = w :: tail ∧ decodeOpcode w = some op ∧ op.argc ≤ tail.length ∧
      i = op.build (operandAt tail 0) (operandAt tail 1) (operandAt tail 2) ∧ rest = tail.drop op.argc := by
  cases ws with
  | nil => cases h
  | cons w tail =>
    simp only [decode] at h
    split at h
    · cases h
    · next op hw =>
      split at h
      · cases h
      · next hn => cases h; exact ⟨w, tail, op, rfl, hw, by omega, rfl, rfl⟩

@[simp] theorem Opcode.build_opcode (op : Opcode) (a b c : Word) : (op.build a b c).opcode = op := by
  cases op <;> rfl

theorem Opcode.argc_le (op : Opcode) : op.argc ≤ 3 := by cases op <;> decide

/-- Building an instruction from its own operands gives it back. -/
theorem Instr.build_operands (i : Instr) (rest : List Word) :
    i.opcode.build (operandAt (i.operands ++ rest) 0) (operandAt (i.operands ++ rest) 1)
      (operandAt (i.operands ++ rest) 2) = i := by
  cases i <;> rfl

end Sys2Proof
end

