-- ==== Sys2Proof/Laws/Memory.lean ====
section
/-! SUPPORT. Memory: read after write (R35, R38), the canonical form is kept by every memory operation, and equal reads mean equal memories. -/

namespace Sys2Proof.Machine

@[simp] theorem Memory.unlisted_eq : Memory.unlisted = 0 := rfl

@[simp] theorem Memory.read_nil (a : Nat) : Memory.read [] a = 0 := rfl

theorem Memory.read_cons (b : Nat) (u : Word) (m : Memory) (a : Nat) :
    Memory.read ((b, u) :: m) a = if a = b then u else Memory.read m a := rfl

/-! ### Reads after the operations -/

theorem Memory.read_erase (m : Memory) (a c : Nat) :
    (m.erase a).read c = if c = a then 0 else m.read c := by
  induction m with
  | nil => simp [Memory.erase]
  | cons cell m ih =>
    obtain ⟨b, u⟩ := cell
    by_cases hb : b = a
    · subst hb
      have : Memory.erase ((b, u) :: m) b = Memory.erase m b := by simp [Memory.erase]
      rw [this, ih, Memory.read_cons]
      split <;> rfl
    · have : Memory.erase ((b, u) :: m) a = (b, u) :: Memory.erase m a := by simp [Memory.erase, hb]
      rw [this, Memory.read_cons, Memory.read_cons, ih]
      by_cases hc : c = b
      · have : c ≠ a := fun h => hb (hc ▸ h)
        simp [hc, hb]
      · simp [hc]

theorem Memory.read_insert (m : Memory) (a c : Nat) (v : Word) (h : ∀ cell ∈ m, cell.1 ≠ a) :
    (m.insert a v).read c = if c = a then v else m.read c := by
  induction m with
  | nil => rfl
  | cons cell m ih =>
    obtain ⟨b, u⟩ := cell
    have hb : b ≠ a := h (b, u) (by simp)
    have hm := ih fun cell hc => h cell (by simp [hc])
    simp only [Memory.insert]
    split
    · rw [Memory.read_cons]
    · rw [Memory.read_cons, Memory.read_cons, hm]
      by_cases hc : c = b
      · simp [hc, hb]
      · simp [hc]

theorem Memory.erase_ne (m : Memory) (a : Nat) : ∀ cell ∈ m.erase a, cell.1 ≠ a := by
  simp [Memory.erase]

/-- What a write does to every read, of any memory. -/
theorem Memory.read_write (m : Memory) (a c : Nat) (v : Word) :
    (m.write a v).read c = if c = a then v else m.read c := by
  unfold Memory.write
  split
  · next h => rw [Memory.read_erase]; simp [h]
  · rw [Memory.read_insert _ _ _ _ (Memory.erase_ne m a), Memory.read_erase]
    split <;> simp_all

@[simp] theorem Memory.read_write_same (m : Memory) (a : Nat) (v : Word) : (m.write a v).read a = v := by
  simp [Memory.read_write]

theorem Memory.read_write_ne (m : Memory) {a c : Nat} (v : Word) (h : c ≠ a) :
    (m.write a v).read c = m.read c := by
  simp [Memory.read_write, h]

theorem Memory.read_ofWordsAt (ws : List Word) : ∀ a c : Nat,
    (Memory.ofWordsAt a ws).read c = if a ≤ c then (ws[c - a]?).getD 0 else 0 := by
  induction ws with
  | nil => intro a c; simp [Memory.ofWordsAt]
  | cons w ws ih =>
    intro a c
    have key : (if c = a then w else (Memory.ofWordsAt (a + 1) ws).read c)
        = if a ≤ c then (((w :: ws) : List Word)[c - a]?).getD 0 else 0 := by
      rw [ih]
      rcases Nat.lt_trichotomy c a with h | h | h
      · have h1 : ¬ a ≤ c := by omega
        have h2 : ¬ a + 1 ≤ c := by omega
        have h3 : c ≠ a := by omega
        simp [h1, h2, h3]
      · simp [h]
      · have h1 : a ≤ c := by omega
        have h2 : a + 1 ≤ c := h
        have h3 : c ≠ a := by omega
        have h4 : c - a = (c - (a + 1)) + 1 := by omega
        simp [h1, h2, h3, h4]
    simp only [Memory.ofWordsAt]
    split
    · next hw =>
      rw [← key]
      split
      · next hc => rw [ih, hc]; simp [hw]
      · rfl
    · rw [Memory.read_cons, key]

/-- Memory after `load` (R128): the image at address 0 upward, 0 above it. -/
theorem Memory.read_ofImage (image : List Word) (a : Nat) :
    (Memory.ofImage image).read a = (image[a]?).getD 0 := by
  simp [Memory.ofImage, Memory.read_ofWordsAt]

theorem Memory.read_writeWords_outside (ws : List Word) : ∀ (m : Memory) (a c : Nat),
    c < a ∨ a + ws.length ≤ c → (m.writeWords a ws).read c = m.read c := by
  induction ws with
  | nil => intro m a c _; rfl
  | cons w ws ih =>
    intro m a c h
    simp only [List.length_cons] at h
    rw [Memory.writeWords, ih _ _ _ (by omega), Memory.read_write_ne _ _ (by omega)]

theorem Memory.window_writeWords (ws : List Word) : ∀ (m : Memory) (a : Nat),
    (m.writeWords a ws).window a ws.length = ws := by
  induction ws with
  | nil => intro m a; rfl
  | cons w ws ih =>
    intro m a
    simp only [Memory.writeWords, List.length_cons, Memory.window, ih]
    rw [Memory.read_writeWords_outside _ _ _ _ (by omega), Memory.read_write_same]

/-! ### The canonical form -/

theorem Memory.wfFrom_cons (lo b : Nat) (u : Word) (m : Memory) :
    Memory.wfFrom lo ((b, u) :: m) = true ↔ lo ≤ b ∧ b < 32768 ∧ u ≠ 0 ∧ Memory.wfFrom (b + 1) m = true := by
  simp [Memory.wfFrom, and_assoc]

theorem Memory.wfFrom_mono {m : Memory} {lo lo' : Nat} (hl : lo' ≤ lo) (h : Memory.wfFrom lo m = true) :
    Memory.wfFrom lo' m = true := by
  cases m with
  | nil => rfl
  | cons cell m =>
    obtain ⟨b, u⟩ := cell
    rw [Memory.wfFrom_cons] at h ⊢
    exact ⟨by omega, h.2⟩

theorem Memory.wfFrom_erase {m : Memory} (a : Nat) : ∀ {lo : Nat}, Memory.wfFrom lo m = true →
    Memory.wfFrom lo (m.erase a) = true := by
  induction m with
  | nil => intro lo h; exact h
  | cons cell m ih =>
    obtain ⟨b, u⟩ := cell
    intro lo h
    rw [Memory.wfFrom_cons] at h
    by_cases hb : b = a
    · have : Memory.erase ((b, u) :: m) a = Memory.erase m a := by simp [Memory.erase, hb]
      rw [this]
      exact Memory.wfFrom_mono (by omega) (ih h.2.2.2)
    · have : Memory.erase ((b, u) :: m) a = (b, u) :: Memory.erase m a := by simp [Memory.erase, hb]
      rw [this, Memory.wfFrom_cons]
      exact ⟨h.1, h.2.1, h.2.2.1, ih h.2.2.2⟩

theorem Memory.wfFrom_insert {m : Memory} {a : Nat} {v : Word} (ha : a < 32768) (hv : v ≠ 0) :
    ∀ {lo : Nat}, lo ≤ a → (∀ cell ∈ m, cell.1 ≠ a) → Memory.wfFrom lo m = true →
    Memory.wfFrom lo (m.insert a v) = true := by
  induction m with
  | nil => intro lo hl _ _; rw [Memory.insert, Memory.wfFrom_cons]; exact ⟨hl, ha, hv, rfl⟩
  | cons cell m ih =>
    obtain ⟨b, u⟩ := cell
    intro lo hl hm h
    have hb : b ≠ a := hm (b, u) (by simp)
    rw [Memory.wfFrom_cons] at h
    simp only [Memory.insert]
    split
    · next hab =>
      rw [Memory.wfFrom_cons, Memory.wfFrom_cons]
      exact ⟨hl, ha, hv, by omega, h.2⟩
    · rw [Memory.wfFrom_cons]
      exact ⟨h.1, h.2.1, h.2.2.1, ih (by omega) (fun c hc => hm c (by simp [hc])) h.2.2.2⟩

/-- A write inside memory keeps the canonical form. -/
theorem Memory.wf_write {m : Memory} {a : Nat} (v : Word) (ha : a < 32768) (h : m.wf = true) :
    (m.write a v).wf = true := by
  unfold Memory.write
  split
  · exact Memory.wfFrom_erase a h
  · next hv => exact Memory.wfFrom_insert ha hv (by omega) (Memory.erase_ne m a) (Memory.wfFrom_erase a h)

/-- Storing a sequence of words inside memory keeps the canonical form. -/
theorem Memory.wf_writeWords (ws : List Word) : ∀ {m : Memory} {a : Nat}, a + ws.length ≤ 32768 →
    m.wf = true → (m.writeWords a ws).wf = true := by
  induction ws with
  | nil => intro m a _ h; exact h
  | cons w ws ih =>
    intro m a ha h
    simp only [List.length_cons] at ha
    exact ih (by omega) (Memory.wf_write w (by omega) h)

theorem Memory.wfFrom_ofWordsAt (ws : List Word) : ∀ a : Nat, a + ws.length ≤ 32768 →
    Memory.wfFrom a (Memory.ofWordsAt a ws) = true := by
  induction ws with
  | nil => intro a _; rfl
  | cons w ws ih =>
    intro a ha
    simp only [List.length_cons] at ha
    have h := ih (a + 1) (by omega)
    simp only [Memory.ofWordsAt]
    split
    · exact Memory.wfFrom_mono (by omega) h
    · next hw =>
      rw [Memory.wfFrom_cons]
      exact ⟨by omega, by omega, hw, h⟩

/-- Memory after a `load` that succeeds is in canonical form. -/
theorem Memory.wf_ofImage {image : List Word} (h : image.length ≤ 32768) : (Memory.ofImage image).wf = true :=
  Memory.wfFrom_ofWordsAt image 0 (by omega)

theorem Memory.read_below {m : Memory} : ∀ {lo c : Nat}, Memory.wfFrom lo m = true → c < lo → m.read c = 0 := by
  induction m with
  | nil => intro _ _ _ _; rfl
  | cons cell m ih =>
    obtain ⟨b, u⟩ := cell
    intro lo c h hc
    rw [Memory.wfFrom_cons] at h
    rw [Memory.read_cons, if_neg (by omega)]
    exact ih h.2.2.2 (by omega)

/-- No word is listed outside memory. -/
theorem Memory.read_outside {m : Memory} : ∀ {lo c : Nat}, Memory.wfFrom lo m = true → 32768 ≤ c → m.read c = 0 := by
  induction m with
  | nil => intro _ _ _ _; rfl
  | cons cell m ih =>
    obtain ⟨b, u⟩ := cell
    intro lo c h hc
    rw [Memory.wfFrom_cons] at h
    rw [Memory.read_cons, if_neg (by omega)]
    exact ih h.2.2.2 hc

end Sys2Proof.Machine
end

