-- ==== Sys2Proof/Laws/State.lean ====
section
/-! SUPPORT. One lemma per field per named update of State, and how a register read meets each update. -/

namespace Sys2Proof.Machine

section
variable (s : State) (m : Memory)

@[simp] theorem State.withMemory_memory : (s.withMemory m).memory = m := rfl
@[simp] theorem State.withMemory_regs : (s.withMemory m).regs = s.regs := rfl
@[simp] theorem State.withMemory_pc : (s.withMemory m).pc = s.pc := rfl
@[simp] theorem State.withMemory_stack : (s.withMemory m).stack = s.stack := rfl
@[simp] theorem State.withMemory_inq : (s.withMemory m).inq = s.inq := rfl
@[simp] theorem State.withMemory_outq : (s.withMemory m).outq = s.outq := rfl
@[simp] theorem State.withMemory_traceEnabled : (s.withMemory m).traceEnabled = s.traceEnabled := rfl
@[simp] theorem State.withMemory_status : (s.withMemory m).status = s.status := rfl
@[simp] theorem State.withMemory_faultReason : (s.withMemory m).faultReason = s.faultReason := rfl
@[simp] theorem State.withMemory_faultInfo : (s.withMemory m).faultInfo = s.faultInfo := rfl
@[simp] theorem State.withMemory_logSink : (s.withMemory m).logSink = s.logSink := rfl
@[simp] theorem State.withMemory_draws : (s.withMemory m).draws = s.draws := rfl
@[simp] theorem State.withMemory_reg (j : Fin 8) : (s.withMemory m).reg j = s.reg j := rfl

end

section
variable (s : State) (k : Fin 8) (v : Word)

@[simp] theorem State.withReg_memory : (s.withReg k v).memory = s.memory := rfl
@[simp] theorem State.withReg_regs : (s.withReg k v).regs = s.regs.set k v := rfl
@[simp] theorem State.withReg_pc : (s.withReg k v).pc = s.pc := rfl
@[simp] theorem State.withReg_stack : (s.withReg k v).stack = s.stack := rfl
@[simp] theorem State.withReg_inq : (s.withReg k v).inq = s.inq := rfl
@[simp] theorem State.withReg_outq : (s.withReg k v).outq = s.outq := rfl
@[simp] theorem State.withReg_traceEnabled : (s.withReg k v).traceEnabled = s.traceEnabled := rfl
@[simp] theorem State.withReg_status : (s.withReg k v).status = s.status := rfl
@[simp] theorem State.withReg_faultReason : (s.withReg k v).faultReason = s.faultReason := rfl
@[simp] theorem State.withReg_faultInfo : (s.withReg k v).faultInfo = s.faultInfo := rfl
@[simp] theorem State.withReg_logSink : (s.withReg k v).logSink = s.logSink := rfl
@[simp] theorem State.withReg_draws : (s.withReg k v).draws = s.draws := rfl

end

section
variable (s : State) (t : Word)

@[simp] theorem State.withPc_memory : (s.withPc t).memory = s.memory := rfl
@[simp] theorem State.withPc_regs : (s.withPc t).regs = s.regs := rfl
@[simp] theorem State.withPc_pc : (s.withPc t).pc = t := rfl
@[simp] theorem State.withPc_stack : (s.withPc t).stack = s.stack := rfl
@[simp] theorem State.withPc_inq : (s.withPc t).inq = s.inq := rfl
@[simp] theorem State.withPc_outq : (s.withPc t).outq = s.outq := rfl
@[simp] theorem State.withPc_traceEnabled : (s.withPc t).traceEnabled = s.traceEnabled := rfl
@[simp] theorem State.withPc_status : (s.withPc t).status = s.status := rfl
@[simp] theorem State.withPc_faultReason : (s.withPc t).faultReason = s.faultReason := rfl
@[simp] theorem State.withPc_faultInfo : (s.withPc t).faultInfo = s.faultInfo := rfl
@[simp] theorem State.withPc_logSink : (s.withPc t).logSink = s.logSink := rfl
@[simp] theorem State.withPc_draws : (s.withPc t).draws = s.draws := rfl
@[simp] theorem State.withPc_reg (j : Fin 8) : (s.withPc t).reg j = s.reg j := rfl

end

section
variable (s : State) (k : List Word)

@[simp] theorem State.withStack_memory : (s.withStack k).memory = s.memory := rfl
@[simp] theorem State.withStack_regs : (s.withStack k).regs = s.regs := rfl
@[simp] theorem State.withStack_pc : (s.withStack k).pc = s.pc := rfl
@[simp] theorem State.withStack_stack : (s.withStack k).stack = k := rfl
@[simp] theorem State.withStack_inq : (s.withStack k).inq = s.inq := rfl
@[simp] theorem State.withStack_outq : (s.withStack k).outq = s.outq := rfl
@[simp] theorem State.withStack_traceEnabled : (s.withStack k).traceEnabled = s.traceEnabled := rfl
@[simp] theorem State.withStack_status : (s.withStack k).status = s.status := rfl
@[simp] theorem State.withStack_faultReason : (s.withStack k).faultReason = s.faultReason := rfl
@[simp] theorem State.withStack_faultInfo : (s.withStack k).faultInfo = s.faultInfo := rfl
@[simp] theorem State.withStack_logSink : (s.withStack k).logSink = s.logSink := rfl
@[simp] theorem State.withStack_draws : (s.withStack k).draws = s.draws := rfl
@[simp] theorem State.withStack_reg (j : Fin 8) : (s.withStack k).reg j = s.reg j := rfl

end

section
variable (s : State) (q : List Byte)

@[simp] theorem State.withInq_memory : (s.withInq q).memory = s.memory := rfl
@[simp] theorem State.withInq_regs : (s.withInq q).regs = s.regs := rfl
@[simp] theorem State.withInq_pc : (s.withInq q).pc = s.pc := rfl
@[simp] theorem State.withInq_stack : (s.withInq q).stack = s.stack := rfl
@[simp] theorem State.withInq_inq : (s.withInq q).inq = q := rfl
@[simp] theorem State.withInq_outq : (s.withInq q).outq = s.outq := rfl
@[simp] theorem State.withInq_traceEnabled : (s.withInq q).traceEnabled = s.traceEnabled := rfl
@[simp] theorem State.withInq_status : (s.withInq q).status = s.status := rfl
@[simp] theorem State.withInq_faultReason : (s.withInq q).faultReason = s.faultReason := rfl
@[simp] theorem State.withInq_faultInfo : (s.withInq q).faultInfo = s.faultInfo := rfl
@[simp] theorem State.withInq_logSink : (s.withInq q).logSink = s.logSink := rfl
@[simp] theorem State.withInq_draws : (s.withInq q).draws = s.draws := rfl
@[simp] theorem State.withInq_reg (j : Fin 8) : (s.withInq q).reg j = s.reg j := rfl

end

section
variable (s : State) (q : List Byte)

@[simp] theorem State.withOutq_memory : (s.withOutq q).memory = s.memory := rfl
@[simp] theorem State.withOutq_regs : (s.withOutq q).regs = s.regs := rfl
@[simp] theorem State.withOutq_pc : (s.withOutq q).pc = s.pc := rfl
@[simp] theorem State.withOutq_stack : (s.withOutq q).stack = s.stack := rfl
@[simp] theorem State.withOutq_inq : (s.withOutq q).inq = s.inq := rfl
@[simp] theorem State.withOutq_outq : (s.withOutq q).outq = q := rfl
@[simp] theorem State.withOutq_traceEnabled : (s.withOutq q).traceEnabled = s.traceEnabled := rfl
@[simp] theorem State.withOutq_status : (s.withOutq q).status = s.status := rfl
@[simp] theorem State.withOutq_faultReason : (s.withOutq q).faultReason = s.faultReason := rfl
@[simp] theorem State.withOutq_faultInfo : (s.withOutq q).faultInfo = s.faultInfo := rfl
@[simp] theorem State.withOutq_logSink : (s.withOutq q).logSink = s.logSink := rfl
@[simp] theorem State.withOutq_draws : (s.withOutq q).draws = s.draws := rfl
@[simp] theorem State.withOutq_reg (j : Fin 8) : (s.withOutq q).reg j = s.reg j := rfl

end

section
variable (s : State) (l : Status)

@[simp] theorem State.withStatus_memory : (s.withStatus l).memory = s.memory := rfl
@[simp] theorem State.withStatus_regs : (s.withStatus l).regs = s.regs := rfl
@[simp] theorem State.withStatus_pc : (s.withStatus l).pc = s.pc := rfl
@[simp] theorem State.withStatus_stack : (s.withStatus l).stack = s.stack := rfl
@[simp] theorem State.withStatus_inq : (s.withStatus l).inq = s.inq := rfl
@[simp] theorem State.withStatus_outq : (s.withStatus l).outq = s.outq := rfl
@[simp] theorem State.withStatus_traceEnabled : (s.withStatus l).traceEnabled = s.traceEnabled := rfl
@[simp] theorem State.withStatus_status : (s.withStatus l).status = l := rfl
@[simp] theorem State.withStatus_faultReason : (s.withStatus l).faultReason = s.faultReason := rfl
@[simp] theorem State.withStatus_faultInfo : (s.withStatus l).faultInfo = s.faultInfo := rfl
@[simp] theorem State.withStatus_logSink : (s.withStatus l).logSink = s.logSink := rfl
@[simp] theorem State.withStatus_draws : (s.withStatus l).draws = s.draws := rfl
@[simp] theorem State.withStatus_reg (j : Fin 8) : (s.withStatus l).reg j = s.reg j := rfl

end

section
variable (s : State) (b : Bool)

@[simp] theorem State.withTrace_memory : (s.withTrace b).memory = s.memory := rfl
@[simp] theorem State.withTrace_regs : (s.withTrace b).regs = s.regs := rfl
@[simp] theorem State.withTrace_pc : (s.withTrace b).pc = s.pc := rfl
@[simp] theorem State.withTrace_stack : (s.withTrace b).stack = s.stack := rfl
@[simp] theorem State.withTrace_inq : (s.withTrace b).inq = s.inq := rfl
@[simp] theorem State.withTrace_outq : (s.withTrace b).outq = s.outq := rfl
@[simp] theorem State.withTrace_traceEnabled : (s.withTrace b).traceEnabled = b := rfl
@[simp] theorem State.withTrace_status : (s.withTrace b).status = s.status := rfl
@[simp] theorem State.withTrace_faultReason : (s.withTrace b).faultReason = s.faultReason := rfl
@[simp] theorem State.withTrace_faultInfo : (s.withTrace b).faultInfo = s.faultInfo := rfl
@[simp] theorem State.withTrace_logSink : (s.withTrace b).logSink = s.logSink := rfl
@[simp] theorem State.withTrace_draws : (s.withTrace b).draws = s.draws := rfl
@[simp] theorem State.withTrace_reg (j : Fin 8) : (s.withTrace b).reg j = s.reg j := rfl

end

section
variable (s : State) (e : LogEntry)

@[simp] theorem State.withLogged_memory : (s.withLogged e).memory = s.memory := rfl
@[simp] theorem State.withLogged_regs : (s.withLogged e).regs = s.regs := rfl
@[simp] theorem State.withLogged_pc : (s.withLogged e).pc = s.pc := rfl
@[simp] theorem State.withLogged_stack : (s.withLogged e).stack = s.stack := rfl
@[simp] theorem State.withLogged_inq : (s.withLogged e).inq = s.inq := rfl
@[simp] theorem State.withLogged_outq : (s.withLogged e).outq = s.outq := rfl
@[simp] theorem State.withLogged_traceEnabled : (s.withLogged e).traceEnabled = s.traceEnabled := rfl
@[simp] theorem State.withLogged_status : (s.withLogged e).status = s.status := rfl
@[simp] theorem State.withLogged_faultReason : (s.withLogged e).faultReason = s.faultReason := rfl
@[simp] theorem State.withLogged_faultInfo : (s.withLogged e).faultInfo = s.faultInfo := rfl
@[simp] theorem State.withLogged_logSink : (s.withLogged e).logSink = s.logSink ++ [e] := rfl
@[simp] theorem State.withLogged_draws : (s.withLogged e).draws = s.draws := rfl
@[simp] theorem State.withLogged_reg (j : Fin 8) : (s.withLogged e).reg j = s.reg j := rfl

end

section
variable (s : State) (c : FaultCause)

@[simp] theorem State.withFaultRecord_memory : (s.withFaultRecord c).memory = s.memory := rfl
@[simp] theorem State.withFaultRecord_regs : (s.withFaultRecord c).regs = s.regs := rfl
@[simp] theorem State.withFaultRecord_pc : (s.withFaultRecord c).pc = s.pc := rfl
@[simp] theorem State.withFaultRecord_stack : (s.withFaultRecord c).stack = s.stack := rfl
@[simp] theorem State.withFaultRecord_inq : (s.withFaultRecord c).inq = s.inq := rfl
@[simp] theorem State.withFaultRecord_outq : (s.withFaultRecord c).outq = s.outq := rfl
@[simp] theorem State.withFaultRecord_traceEnabled : (s.withFaultRecord c).traceEnabled = s.traceEnabled := rfl
@[simp] theorem State.withFaultRecord_status : (s.withFaultRecord c).status = s.status := rfl
@[simp] theorem State.withFaultRecord_faultReason : (s.withFaultRecord c).faultReason = c.reason := rfl
@[simp] theorem State.withFaultRecord_faultInfo : (s.withFaultRecord c).faultInfo = c.info := rfl
@[simp] theorem State.withFaultRecord_logSink : (s.withFaultRecord c).logSink = s.logSink := rfl
@[simp] theorem State.withFaultRecord_draws : (s.withFaultRecord c).draws = s.draws := rfl
@[simp] theorem State.withFaultRecord_reg (j : Fin 8) : (s.withFaultRecord c).reg j = s.reg j := rfl

end

@[simp] theorem State.withReg_reg_same (s : State) (k : Fin 8) (v : Word) : (s.withReg k v).reg k = v := by
  simp [State.withReg, State.reg]

theorem State.withReg_reg_ne (s : State) {k j : Fin 8} (v : Word) (h : j ≠ k) :
    (s.withReg k v).reg j = s.reg j := by
  have : k.val ≠ j.val := fun e => h (Fin.ext e.symm)
  simp [State.withReg, State.reg, Vector.getElem_set_ne, this]

theorem State.withReg_reg (s : State) (k j : Fin 8) (v : Word) :
    (s.withReg k v).reg j = if j = k then v else s.reg j := by
  split
  · next h => subst h; simp
  · next h => exact State.withReg_reg_ne s v h

section
variable (s : State) (c : FaultCause)

@[simp] theorem takeFault_memory : (takeFault s c).memory = s.memory := rfl
@[simp] theorem takeFault_regs : (takeFault s c).regs = s.regs := rfl
@[simp] theorem takeFault_pc : (takeFault s c).pc = s.pc := rfl
@[simp] theorem takeFault_stack : (takeFault s c).stack = s.stack := rfl
@[simp] theorem takeFault_inq : (takeFault s c).inq = s.inq := rfl
@[simp] theorem takeFault_outq : (takeFault s c).outq = s.outq := rfl
@[simp] theorem takeFault_traceEnabled : (takeFault s c).traceEnabled = s.traceEnabled := rfl
@[simp] theorem takeFault_status : (takeFault s c).status = .fault := rfl
@[simp] theorem takeFault_faultReason : (takeFault s c).faultReason = c.reason := rfl
@[simp] theorem takeFault_faultInfo : (takeFault s c).faultInfo = c.info := rfl
@[simp] theorem takeFault_logSink : (takeFault s c).logSink = s.logSink ++ [.faultLog c.reason c.info] := rfl
@[simp] theorem takeFault_draws : (takeFault s c).draws = s.draws := rfl
@[simp] theorem takeFault_reg (j : Fin 8) : (takeFault s c).reg j = s.reg j := rfl

end

end Sys2Proof.Machine
end

