-- ==== Sys2Proof/Laws/Operands.lean ====
section
/-! SUPPORT. The operand primitives: what each answers, once for every case, and what each can do. -/

namespace Sys2Proof.Machine

@[simp] theorem isLit_iff (w : Word) : isLit w = true ↔ w.toNat ≤ 32767 := by simp [isLit]

@[simp] theorem isReg_iff (w : Word) : isReg w = true ↔ 32768 ≤ w.toNat ∧ w.toNat ≤ 32775 := by simp [isReg]

/-- `regIdx` is `w - 32768` on a register reference. -/
theorem regIdx_val {w : Word} (h : isReg w = true) : (regIdx w).val = w.toNat - 32768 := by
  rw [isReg_iff] at h
  simp only [regIdx]
  omega

theorem val_lit (s : State) {w : Word} (h : w.toNat ≤ 32767) : val s w = .ok w := by
  simp [val, h]

theorem val_reg (s : State) {w : Word} (h : isReg w = true) : val s w = .ok (s.reg (regIdx w)) := by
  have h' := (isReg_iff w).1 h
  have : ¬ isLit w = true := by simp; omega
  rw [val, if_neg this, if_pos h]

theorem val_invalid (s : State) {w : Word} (h : 32776 ≤ w.toNat) : val s w = .error ⟨.invalidOperand, w⟩ := by
  have h1 : ¬ isLit w = true := by simp; omega
  have h2 : ¬ isReg w = true := by simp; omega
  rw [val, if_neg h1, if_neg h2]

/-- Everything `Val` can answer (R70). -/
theorem val_cases (s : State) (w : Word) :
    (w.toNat ≤ 32767 ∧ val s w = .ok w) ∨ (isReg w = true ∧ val s w = .ok (s.reg (regIdx w))) ∨
    (32776 ≤ w.toNat ∧ val s w = .error ⟨.invalidOperand, w⟩) := by
  by_cases h1 : w.toNat ≤ 32767
  · exact .inl ⟨h1, val_lit s h1⟩
  · by_cases h2 : w.toNat ≤ 32775
    · have h : isReg w = true := by simp; omega
      exact .inr (.inl ⟨h, val_reg s h⟩)
    · have h : 32776 ≤ w.toNat := by omega
      exact .inr (.inr ⟨h, val_invalid s h⟩)

theorem val_ok_le {s : State} {w v : Word} (hr : ∀ k, (s.reg k).toNat ≤ 32767) (h : val s w = .ok v) :
    v.toNat ≤ 32767 := by
  rcases val_cases s w with ⟨hw, e⟩ | ⟨_, e⟩ | ⟨_, e⟩ <;> rw [e] at h <;> cases h
  · exact hw
  · exact hr _

/-- `Val` reads registers and nothing else. -/
theorem val_congr {s t : State} (h : t.regs = s.regs) (w : Word) : val t w = val s w := by
  simp [val, State.reg, h]

theorem writeReg_notReg (s : State) {d : Word} (w : Word) (h : ¬ isReg d = true) :
    writeReg s d w = .error ⟨.invalidRegister, d⟩ := by
  simp only [writeReg, if_neg h]

theorem writeReg_val (s : State) {d w v : Word} (hd : isReg d = true) (hw : val s w = .ok v) :
    writeReg s d w = .ok (s.withReg (regIdx d) v) := by
  simp only [writeReg, if_pos hd, hw]

theorem writeReg_valError (s : State) {d w : Word} {c : FaultCause} (hd : isReg d = true) (hw : val s w = .error c) :
    writeReg s d w = .error c := by
  simp only [writeReg, if_pos hd, hw]

/-- A value word that is a literal is stored as it is: `WriteReg`'s resolution is the identity there (R71). -/
theorem writeReg_literal (s : State) {d w : Word} (hd : isReg d = true) (hw : w.toNat ≤ 32767) :
    writeReg s d w = .ok (s.withReg (regIdx d) w) :=
  writeReg_val s hd (val_lit s hw)

/-- All `WriteReg` can do when it succeeds. -/
theorem writeReg_ok {s t : State} {d w : Word} (h : writeReg s d w = .ok t) :
    isReg d = true ∧ ∃ v, val s w = .ok v ∧ t = s.withReg (regIdx d) v := by
  simp only [writeReg] at h
  split at h
  · next hd =>
    split at h
    · cases h
    · next v hv => cases h; exact ⟨hd, v, hv, rfl⟩
  · cases h

theorem jumpTo_val (s : State) {w t : Word} (h : val s w = .ok t) : jumpTo s w = .ok (s.withPc t) := by
  simp only [jumpTo, h]

theorem jumpTo_valError (s : State) {w : Word} {c : FaultCause} (h : val s w = .error c) : jumpTo s w = .error c := by
  simp only [jumpTo, h]

theorem jumpTo_ok {s t : State} {w : Word} (h : jumpTo s w = .ok t) : ∃ v, val s w = .ok v ∧ t = s.withPc v := by
  simp only [jumpTo] at h
  split at h
  · cases h
  · next v hv => cases h; exact ⟨v, hv, rfl⟩

theorem memRead_inside (s : State) {a : Nat} (h : a ≤ 32767) : memRead s a = .ok (s.memory.read a) := by
  simp only [memRead, if_neg (Nat.not_lt.2 h)]

theorem memWrite_inside (s : State) {a : Nat} (v : Word) (h : a ≤ 32767) :
    memWrite s a v = .ok (s.withMemory (s.memory.write a v)) := by
  simp only [memWrite, if_neg (Nat.not_lt.2 h)]

theorem memWrite_ok {s t : State} {a : Nat} {v : Word} (h : memWrite s a v = .ok t) :
    a ≤ 32767 ∧ t = s.withMemory (s.memory.write a v) := by
  simp only [memWrite] at h
  split at h
  · cases h
  · next ha => cases h; exact ⟨by omega, rfl⟩

theorem readMem_val (s : State) {w a : Word} (h : val s w = .ok a) : readMem s w = memRead s a.toNat := by
  simp only [readMem, h]

theorem readMem_valError (s : State) {w : Word} {c : FaultCause} (h : val s w = .error c) : readMem s w = .error c := by
  simp only [readMem, h]

theorem writeMem_val (s : State) {wa wv a v : Word} (ha : val s wa = .ok a) (hv : val s wv = .ok v) :
    writeMem s wa wv = memWrite s a.toNat v := by
  simp only [writeMem, ha, hv]

/-- All `WriteMem` can do when it succeeds. -/
theorem writeMem_ok {s t : State} {wa wv : Word} (h : writeMem s wa wv = .ok t) :
    ∃ a v, val s wa = .ok a ∧ val s wv = .ok v ∧ a.toNat ≤ 32767 ∧
      t = s.withMemory (s.memory.write a.toNat v) := by
  simp only [writeMem] at h
  split at h
  · cases h
  · next a ha =>
    split at h
    · cases h
    · next v hv => exact ⟨a, v, ha, hv, memWrite_ok h⟩

theorem stackPop_ok {s : State} {p : Word × State} (h : stackPop s = .ok p) :
    s.stack = p.1 :: p.2.stack ∧ p.2 = s.withStack p.2.stack := by
  simp only [stackPop] at h
  split at h
  · cases h
  · next v rest hs => cases h; exact ⟨by simpa using hs, rfl⟩

theorem stackPop_cons (s : State) {v : Word} {rest : List Word} (h : s.stack = v :: rest) :
    stackPop s = .ok (v, s.withStack rest) := by
  simp only [stackPop, h]

theorem stackPop_nil (s : State) (h : s.stack = []) : stackPop s = .error ⟨.emptyStack, 0⟩ := by
  simp only [stackPop, h]

/-! ### The result computations stay resolved values (R91, R92) -/

theorem truthWord_le (b : Bool) : (truthWord b).toNat ≤ 32767 := by cases b <;> decide

theorem addWord_toNat (x y : Word) : (addWord x y).toNat = (x.toNat + y.toNat) % 32768 := by
  simp only [addWord, BitVec.toNat_ofNat]; omega

theorem mulWord_toNat (x y : Word) : (mulWord x y).toNat = x.toNat * y.toNat % 32768 := by
  simp only [mulWord, BitVec.toNat_ofNat]; omega

theorem notWord_le (x : Word) : (notWord x).toNat ≤ 32767 := by
  simp only [notWord, BitVec.toNat_and]
  exact Nat.le_trans Nat.and_le_right (by decide)

theorem andWord_le {x : Word} (y : Word) (h : x.toNat ≤ 32767) : (andWord x y).toNat ≤ 32767 := by
  simp only [andWord, BitVec.toNat_and]
  exact Nat.le_trans Nat.and_le_left h

theorem orWord_le {x y : Word} (hx : x.toNat ≤ 32767) (hy : y.toNat ≤ 32767) : (orWord x y).toNat ≤ 32767 := by
  have : (orWord x y).toNat < 2 ^ 15 := by
    simp only [orWord, BitVec.toNat_or]
    exact Nat.or_lt_two_pow (by omega) (by omega)
  omega

/-- The condition of the conditional jumps is the zero test (R82). -/
theorem condHolds_iff (c : Word) : condHolds c = true ↔ c ≠ 0 := by
  rw [condHolds, bne_iff_ne]

theorem modWord_nonzero (x : Word) {y : Word} (h : y ≠ 0) :
    modWord x y = .ok (BitVec.ofNat 16 (x.toNat % y.toNat)) := by
  rw [modWord, if_neg h]

theorem modWord_zero (x : Word) : modWord x 0 = .error ⟨.arithmeticFault, 0⟩ := rfl

theorem modWord_ok {x y r : Word} (h : modWord x y = .ok r) :
    y ≠ 0 ∧ r.toNat = x.toNat % y.toNat := by
  simp only [modWord] at h
  split at h
  · cases h
  · next hy =>
    cases h
    refine ⟨hy, ?_⟩
    simp only [BitVec.toNat_ofNat]
    have : x.toNat % y.toNat ≤ x.toNat := Nat.mod_le _ _
    have : x.toNat < 65536 := x.isLt
    omega

end Sys2Proof.Machine
end

