-- ==== Sys2Proof/Laws/Exec.lean ====
section
/-! SUPPORT. What `exec` can do, said once: it takes a fault in the state it was given, or has the instruction's effect. -/

namespace Sys2Proof.Machine

/-! ### The outcome combinators -/

theorem orRaise_ok {α : Type} {r : Except FaultCause α} {v : α} (s : State) (k : α → Result) (h : r = .ok v) :
    orRaise r s k = k v := by
  simp only [orRaise, h]

theorem orRaise_error {α : Type} {r : Except FaultCause α} {c : FaultCause} (s : State) (k : α → Result)
    (h : r = .error c) : orRaise r s k = .next (takeFault s c) := by
  simp only [orRaise, h, raise]

/-- Everything `orRaise` can do. -/
theorem orRaise_next {α : Type} {r : Except FaultCause α} {s t : State} {k : α → Result}
    (h : orRaise r s k = .next t) : (∃ c, r = .error c ∧ t = takeFault s c) ∨ ∃ v, r = .ok v ∧ k v = .next t := by
  cases r with
  | error c => exact .inl ⟨c, rfl, by simpa [orRaise, raise] using h.symm⟩
  | ok v => exact .inr ⟨v, rfl, h⟩

theorem proceed_next {s t : State} (h : proceed s = .next t) : t = s.withStatus .run := by
  simpa [proceed] using h.symm

theorem proceed_eq (s : State) : proceed s = .next (s.withStatus .run) := rfl

theorem takeFault_eq_faulted (s : State) (r : FaultReason) (info : Word) :
    takeFault s ⟨r, info⟩ = faulted s r info := rfl

/-! ### The words of the statements and the model's primitives -/

theorem isReg_of_namesReg {d : Word} {k : Fin 8} (h : NamesReg d k) : isReg d = true := by
  simp only [isReg_iff]; omega

theorem regIdx_of_namesReg {d : Word} {k : Fin 8} (h : NamesReg d k) : regIdx d = k :=
  Fin.ext (by rw [regIdx_val (isReg_of_namesReg h)]; omega)

theorem namesReg_regIdx {d : Word} (h : isReg d = true) : NamesReg d (regIdx d) := by
  have := regIdx_val h
  rw [isReg_iff] at h
  simp only [NamesReg]; omega

theorem not_isReg_iff (d : Word) : ¬ isReg d = true ↔ NotReg d := by
  simp only [isReg_iff, NotReg]; omega

theorem resolves_iff (s : State) (w v : Word) : Resolves s w v ↔ val s w = .ok v := by
  constructor
  · rintro (⟨h, rfl⟩ | ⟨k, h, rfl⟩)
    · exact val_lit s h
    · rw [val_reg s (isReg_of_namesReg h), regIdx_of_namesReg h]
  · intro h
    rcases val_cases s w with ⟨hw, e⟩ | ⟨hr, e⟩ | ⟨_, e⟩ <;> rw [e] at h <;> cases h
    · exact .inl ⟨hw, rfl⟩
    · exact .inr ⟨_, namesReg_regIdx hr, rfl⟩

theorem val_of_invalidWord (s : State) {w : Word} (h : InvalidWord w) : val s w = .error ⟨.invalidOperand, w⟩ :=
  val_invalid s h

/-! ### The effect of each instruction -/

/-- `t` is `s` with the value `WriteReg(d, w)` resolves to written, and status `RUN`. -/
def Wrote (s : State) (d w : Word) (t : State) : Prop :=
  isReg d = true ∧ ∃ v, val s w = .ok v ∧ t = (s.withReg (regIdx d) v).withStatus .run

/-- The effect of a three-operand instruction. -/
def WroteBinary (f : Word → Word → Word) (d x y : Word) (s t : State) : Prop :=
  ∃ a b, val s x = .ok a ∧ val s y = .ok b ∧ Wrote s d (f a b) t

/-- What an instruction that raises no fault leaves. -/
def Effect (i : Instr) (s t : State) : Prop :=
  match i with
  | .halt => t = s.withStatus .halted
  | .set d v => Wrote s d v t
  | .push v => ∃ x, val s v = .ok x ∧ t = (stackPush s x).withStatus .run
  | .pop d => ∃ w rest, s.stack = w :: rest ∧ Wrote (s.withStack rest) d w t
  | .eq d x y => WroteBinary eqWord d x y s t
  | .gt d x y => WroteBinary gtWord d x y s t
  | .jmp g => ∃ a, val s g = .ok a ∧ t = (s.withPc a).withStatus .run
  | .jt c g => ∃ x, val s c = .ok x ∧
      ((condHolds x = true ∧ ∃ a, val s g = .ok a ∧ t = (s.withPc a).withStatus .run) ∨
       (condHolds x = false ∧ t = s.withStatus .run))
  | .jf c g => ∃ x, val s c = .ok x ∧
      ((condHolds x = false ∧ ∃ a, val s g = .ok a ∧ t = (s.withPc a).withStatus .run) ∨
       (condHolds x = true ∧ t = s.withStatus .run))
  | .add d x y => WroteBinary addWord d x y s t
  | .mul d x y => WroteBinary mulWord d x y s t
  | .mod d x y => ∃ a b r, val s x = .ok a ∧ val s y = .ok b ∧ modWord a b = .ok r ∧ Wrote s d r t
  | .and d x y => WroteBinary andWord d x y s t
  | .or d x y => WroteBinary orWord d x y s t
  | .not d x => ∃ a, val s x = .ok a ∧ Wrote s d (notWord a) t
  | .rmem d p => ∃ a, val s p = .ok a ∧ a.toNat ≤ 32767 ∧ Wrote s d (s.memory.read a.toNat) t
  | .wmem p v => ∃ a x, val s p = .ok a ∧ val s v = .ok x ∧ a.toNat ≤ 32767 ∧
      t = (s.withMemory (s.memory.write a.toNat x)).withStatus .run
  | .call g => ∃ a, val s g = .ok a ∧ t = ((stackPush s s.pc).withPc a).withStatus .run
  | .ret => ∃ w rest, s.stack = w :: rest ∧ t = ((s.withStack rest).withPc w).withStatus .run
  | .out v => ∃ x, val s v = .ok x ∧ t = (enqueueOutput s (x.setWidth 8)).withStatus .run
  | .in_ d => (s.inq = [] ∧ t = (s.withPc (s.pc - 2)).withStatus .waitInput) ∨
      ∃ b rest, s.inq = b :: rest ∧ Wrote (s.withInq rest) d (b.setWidth 16) t
  | .noop => t = s.withStatus .run

theorem wrote_of_writeReg {s t u : State} {d w : Word} (h : writeReg s d w = .ok u) (hu : proceed u = .next t) :
    Wrote s d w t := by
  obtain ⟨hd, v, hv, rfl⟩ := writeReg_ok h
  exact ⟨hd, v, hv, proceed_next hu⟩

/-- Writing a register, then completing: a fault in the state the instruction was given, or the write. -/
theorem finishWrite_next {s s' t : State} {d w : Word} (h : orRaise (writeReg s' d w) s proceed = .next t) :
    (∃ c, t = takeFault s c) ∨ Wrote s' d w t := by
  rcases orRaise_next h with ⟨c, _, rfl⟩ | ⟨u, hu, hk⟩
  · exact .inl ⟨c, rfl⟩
  · exact .inr (wrote_of_writeReg hu hk)

theorem jump_next {s t : State} {g : Word} (h : orRaise (jumpTo s g) s proceed = .next t) :
    (∃ c, t = takeFault s c) ∨ ∃ a, val s g = .ok a ∧ t = (s.withPc a).withStatus .run := by
  rcases orRaise_next h with ⟨c, _, rfl⟩ | ⟨u, hu, hk⟩
  · exact .inl ⟨c, rfl⟩
  · obtain ⟨a, ha, rfl⟩ := jumpTo_ok hu
    exact .inr ⟨a, ha, proceed_next hk⟩

theorem writeBinary_next {f : Word → Word → Word} {d x y : Word} {s t : State}
    (h : writeBinary f d x y s = .next t) : (∃ c, t = takeFault s c) ∨ WroteBinary f d x y s t := by
  rcases orRaise_next h with ⟨c, _, rfl⟩ | ⟨a, ha, h⟩
  · exact .inl ⟨c, rfl⟩
  rcases orRaise_next h with ⟨c, _, rfl⟩ | ⟨b, hb, h⟩
  · exact .inl ⟨c, rfl⟩
  exact (finishWrite_next h).imp id fun hw => ⟨a, b, ha, hb, hw⟩

/-- EVERYTHING `exec` CAN DO: take a fault in the state it was given, or have the instruction's effect. -/
theorem exec_cases {i : Instr} {s t : State} (h : exec i s = .next t) :
    (∃ c, t = takeFault s c) ∨ Effect i s t := by
  cases i with
  | halt => cases h; exact .inr rfl
  | noop => exact .inr (proceed_next h)
  | set d v => exact finishWrite_next h
  | push v =>
    rcases orRaise_next h with ⟨c, _, rfl⟩ | ⟨x, hx, h⟩
    · exact .inl ⟨c, rfl⟩
    · exact .inr ⟨x, hx, proceed_next h⟩
  | pop d =>
    rcases orRaise_next h with ⟨c, _, rfl⟩ | ⟨p, hp, h⟩
    · exact .inl ⟨c, rfl⟩
    · obtain ⟨hs, hp2⟩ := stackPop_ok hp
      rw [hp2] at h
      exact (finishWrite_next h).imp id fun hw => ⟨p.1, _, hs, hw⟩
  | eq d x y => exact writeBinary_next h
  | gt d x y => exact writeBinary_next h
  | jmp g => exact jump_next h
  | jt c g =>
    rcases orRaise_next h with ⟨c, _, rfl⟩ | ⟨x, hx, h⟩
    · exact .inl ⟨c, rfl⟩
    · split at h
      · next hc => exact (jump_next h).imp id fun hj => ⟨x, hx, .inl ⟨hc, hj⟩⟩
      · next hc => exact .inr ⟨x, hx, .inr ⟨by simpa using hc, proceed_next h⟩⟩
  | jf c g =>
    rcases orRaise_next h with ⟨c, _, rfl⟩ | ⟨x, hx, h⟩
    · exact .inl ⟨c, rfl⟩
    · split at h
      · next hc => exact .inr ⟨x, hx, .inr ⟨hc, proceed_next h⟩⟩
      · next hc => exact (jump_next h).imp id fun hj => ⟨x, hx, .inl ⟨by simpa using hc, hj⟩⟩
  | add d x y => exact writeBinary_next h
  | mul d x y => exact writeBinary_next h
  | mod d x y =>
    rcases orRaise_next h with ⟨c, _, rfl⟩ | ⟨a, ha, h⟩
    · exact .inl ⟨c, rfl⟩
    rcases orRaise_next h with ⟨c, _, rfl⟩ | ⟨b, hb, h⟩
    · exact .inl ⟨c, rfl⟩
    rcases orRaise_next h with ⟨c, _, rfl⟩ | ⟨r, hr, h⟩
    · exact .inl ⟨c, rfl⟩
    exact (finishWrite_next h).imp id fun hw => ⟨a, b, r, ha, hb, hr, hw⟩
  | and d x y => exact writeBinary_next h
  | or d x y => exact writeBinary_next h
  | not d x =>
    rcases orRaise_next h with ⟨c, _, rfl⟩ | ⟨a, ha, h⟩
    · exact .inl ⟨c, rfl⟩
    exact (finishWrite_next h).imp id fun hw => ⟨a, ha, hw⟩
  | rmem d p =>
    rcases orRaise_next h with ⟨c, _, rfl⟩ | ⟨m, hm, h⟩
    · exact .inl ⟨c, rfl⟩
    · simp only [readMem] at hm
      split at hm
      · cases hm
      · next a ha =>
        simp only [memRead] at hm
        split at hm
        · cases hm
        · next hle =>
          cases hm
          exact (finishWrite_next h).imp id fun hw => ⟨a, ha, by omega, hw⟩
  | wmem p v =>
    rcases orRaise_next h with ⟨c, _, rfl⟩ | ⟨u, hu, h⟩
    · exact .inl ⟨c, rfl⟩
    · obtain ⟨a, x, ha, hx, hle, rfl⟩ := writeMem_ok hu
      exact .inr ⟨a, x, ha, hx, hle, proceed_next h⟩
  | call g =>
    rcases orRaise_next h with ⟨c, _, rfl⟩ | ⟨a, ha, h⟩
    · exact .inl ⟨c, rfl⟩
    · exact .inr ⟨a, ha, proceed_next h⟩
  | ret =>
    rcases orRaise_next h with ⟨c, _, rfl⟩ | ⟨p, hp, h⟩
    · exact .inl ⟨c, rfl⟩
    · obtain ⟨hs, hp2⟩ := stackPop_ok hp
      refine .inr ⟨p.1, p.2.stack, hs, ?_⟩
      rw [proceed_next h, hp2]
      rfl
  | out v =>
    rcases orRaise_next h with ⟨c, _, rfl⟩ | ⟨x, hx, h⟩
    · exact .inl ⟨c, rfl⟩
    · exact .inr ⟨x, hx, proceed_next h⟩
  | in_ d =>
    simp only [exec, execIn, dequeueInput] at h
    cases hq : s.inq with
    | nil => rw [hq] at h; cases h; exact .inr (.inl ⟨hq, rfl⟩)
    | cons b rest =>
      rw [hq] at h
      exact (finishWrite_next h).imp id fun hw => .inr ⟨b, rest, hq, hw⟩

/-- What a register write leaves unchanged. -/
theorem Wrote.eq {s t : State} {d w : Word} (h : Wrote s d w t) :
    ∃ k v, NamesReg d k ∧ val s w = .ok v ∧ t = (s.withReg k v).withStatus .run := by
  obtain ⟨hd, v, hv, rfl⟩ := h
  exact ⟨regIdx d, v, namesReg_regIdx hd, hv, rfl⟩

end Sys2Proof.Machine
end

