-- ==== Sys2Proof/Laws/PerInstr.lean ====
section
/-! SUPPORT. The family Layout: each instruction occupies 1 + argc words, its operand words as many as its opcode's argument count (R44, R51), and its opcode word selects its own opcode (R77). -/

namespace Sys2Proof.Laws.Layout

/-- The layout of one instruction. -/
def Statement (i : Instr) : Prop :=
  (encode i).length = 1 + i.opcode.argc ∧ i.operands.length = i.opcode.argc ∧
    decodeOpcode i.opcode.number = some i.opcode

theorem halt : Statement .halt := ⟨rfl, rfl, decodeOpcode_number _⟩
theorem set (a b : Word) : Statement (.set a b) := ⟨rfl, rfl, decodeOpcode_number _⟩
theorem push (a : Word) : Statement (.push a) := ⟨rfl, rfl, decodeOpcode_number _⟩
theorem pop (a : Word) : Statement (.pop a) := ⟨rfl, rfl, decodeOpcode_number _⟩
theorem eq (a b c : Word) : Statement (.eq a b c) := ⟨rfl, rfl, decodeOpcode_number _⟩
theorem gt (a b c : Word) : Statement (.gt a b c) := ⟨rfl, rfl, decodeOpcode_number _⟩
theorem jmp (a : Word) : Statement (.jmp a) := ⟨rfl, rfl, decodeOpcode_number _⟩
theorem jt (a b : Word) : Statement (.jt a b) := ⟨rfl, rfl, decodeOpcode_number _⟩
theorem jf (a b : Word) : Statement (.jf a b) := ⟨rfl, rfl, decodeOpcode_number _⟩
theorem add (a b c : Word) : Statement (.add a b c) := ⟨rfl, rfl, decodeOpcode_number _⟩
theorem mul (a b c : Word) : Statement (.mul a b c) := ⟨rfl, rfl, decodeOpcode_number _⟩
theorem mod (a b c : Word) : Statement (.mod a b c) := ⟨rfl, rfl, decodeOpcode_number _⟩
theorem and (a b c : Word) : Statement (.and a b c) := ⟨rfl, rfl, decodeOpcode_number _⟩
theorem or (a b c : Word) : Statement (.or a b c) := ⟨rfl, rfl, decodeOpcode_number _⟩
theorem not (a b : Word) : Statement (.not a b) := ⟨rfl, rfl, decodeOpcode_number _⟩
theorem rmem (a b : Word) : Statement (.rmem a b) := ⟨rfl, rfl, decodeOpcode_number _⟩
theorem wmem (a b : Word) : Statement (.wmem a b) := ⟨rfl, rfl, decodeOpcode_number _⟩
theorem call (a : Word) : Statement (.call a) := ⟨rfl, rfl, decodeOpcode_number _⟩
theorem ret : Statement .ret := ⟨rfl, rfl, decodeOpcode_number _⟩
theorem out (a : Word) : Statement (.out a) := ⟨rfl, rfl, decodeOpcode_number _⟩
theorem in_ (a : Word) : Statement (.in_ a) := ⟨rfl, rfl, decodeOpcode_number _⟩
theorem noop : Statement .noop := ⟨rfl, rfl, decodeOpcode_number _⟩

end Sys2Proof.Laws.Layout
end

