-- ==== Sys2Proof/Laws/Step.lean ====
section
/-! SUPPORT. Fetch and step: the words at `pc`, each way a step can go, and that `exec` always answers a next state's form. -/

namespace Sys2Proof.Machine

theorem gate_none_iff (s : State) : gate s = none ↔ Admitted s := by
  simp only [gate, Admitted]
  cases s.status <;> simp

/-- A step in an admitted state is fetch, then `exec`. -/
theorem step_admitted {s : State} (h : Admitted s) :
    step s = match fetch s with
      | .error c => .next (takeFault s c)
      | .ok i => exec i (enter i s) := by
  simp only [step, (gate_none_iff s).2 h]
  cases fetch s <;> rfl

/-- All a step that answers a next state can have done. -/
theorem step_cases {s t : State} (h : step s = .next t) :
    Admitted s ∧ ((∃ c, fetch s = .error c ∧ t = takeFault s c) ∨
      ∃ i, fetch s = .ok i ∧ exec i (enter i s) = .next t) := by
  cases hg : gate s with
  | some stop =>
    simp only [step, hg] at h
    subst h
    simp only [gate] at hg
    cases hs : s.status <;> simp [hs] at hg
  | none =>
    have ha := (gate_none_iff s).1 hg
    refine ⟨ha, ?_⟩
    rw [step_admitted ha] at h
    cases hf : fetch s with
    | error c => rw [hf] at h; cases h; exact .inl ⟨c, rfl, rfl⟩
    | ok i => rw [hf] at h; exact .inr ⟨i, rfl, h⟩

/-- The model's `enter` is the statements' `entered` on an instruction of the table. -/
theorem enter_eq_entered (i : Instr) (s : State) : enter i s = entered s i := by
  have hn : i.opcode.argc = i.operands.length := by cases i <;> rfl
  simp only [enter, entered, nextPc, hn]
  split <;> simp [State.withPc, State.withLogged]

theorem Memory.window_length (m : Memory) : ∀ n a : Nat, (m.window a n).length = n := by
  intro n
  induction n with
  | zero => intro a; rfl
  | succ n ih => intro a; simp [Memory.window, ih]

theorem Memory.window_getElem? (m : Memory) : ∀ n a k : Nat, k < n → (m.window a n)[k]? = some (m.read (a + k)) := by
  intro n
  induction n with
  | zero => intro a k h; omega
  | succ n ih =>
    intro a k h
    cases k with
    | zero => simp [Memory.window]
    | succ k =>
      have e : a + 1 + k = a + (k + 1) := by omega
      simp [Memory.window, ih (a + 1) k (by omega), e]

@[simp] theorem enter_memory (i : Instr) (s : State) : (enter i s).memory = s.memory := by
  simp only [enter]; split <;> rfl

@[simp] theorem enter_regs (i : Instr) (s : State) : (enter i s).regs = s.regs := by
  simp only [enter]; split <;> rfl

@[simp] theorem enter_reg (i : Instr) (s : State) (k : Fin 8) : (enter i s).reg k = s.reg k := by
  simp only [enter]; split <;> rfl

@[simp] theorem enter_stack (i : Instr) (s : State) : (enter i s).stack = s.stack := by
  simp only [enter]; split <;> rfl

@[simp] theorem enter_inq (i : Instr) (s : State) : (enter i s).inq = s.inq := by
  simp only [enter]; split <;> rfl

@[simp] theorem enter_outq (i : Instr) (s : State) : (enter i s).outq = s.outq := by
  simp only [enter]; split <;> rfl

@[simp] theorem enter_pc (i : Instr) (s : State) : (enter i s).pc = nextPc i s.pc := by
  simp only [enter]; split <;> rfl

@[simp] theorem enter_status (i : Instr) (s : State) : (enter i s).status = s.status := by
  simp only [enter]; split <;> rfl

@[simp] theorem enter_traceEnabled (i : Instr) (s : State) : (enter i s).traceEnabled = s.traceEnabled := by
  simp only [enter]; split <;> rfl

/-- Fetch where `pc` is past memory (R61). -/
theorem fetch_outside {s : State} (h : 32768 ≤ s.pc.toNat) : fetch s = .error ⟨.invalidAddress, s.pc⟩ := by
  have : 32768 - s.pc.toNat = 0 := by omega
  simp [fetch, wordsAtPc, this, Memory.window, decode, fetchCause]

/-- The words at a `pc` inside memory begin with the opcode word. -/
theorem wordsAtPc_inside {s : State} (h : s.pc.toNat ≤ 32767) :
    wordsAtPc s = s.memory.read s.pc.toNat ::
      s.memory.window (s.pc.toNat + 1) (min 3 (32767 - s.pc.toNat)) := by
  have e : min 4 (32768 - s.pc.toNat) = min 3 (32767 - s.pc.toNat) + 1 := by omega
  simp only [wordsAtPc, e, Memory.window]

/-- Fetch of a word that is no opcode (R62). -/
theorem fetch_unknown {s : State} (h : s.pc.toNat ≤ 32767)
    (hw : decodeOpcode (s.memory.read s.pc.toNat) = none) :
    fetch s = .error ⟨.unknownOpcode, s.memory.read s.pc.toNat⟩ := by
  simp only [fetch, wordsAtPc_inside h, decode, hw, fetchCause]

/-- Fetch of an opcode word: the window fits below the top of memory, or the step faults (R63). -/
theorem fetch_known {s : State} {op : Opcode} (h : s.pc.toNat ≤ 32767)
    (hw : decodeOpcode (s.memory.read s.pc.toNat) = some op) :
    (32767 < s.pc.toNat + op.argc ∧ fetch s = .error ⟨.invalidAddress, 32768⟩) ∨
    (s.pc.toNat + op.argc ≤ 32767 ∧ ∃ i, i.opcode = op ∧ fetch s = .ok i) := by
  have hlen := Memory.window_length s.memory (min 3 (32767 - s.pc.toNat)) (s.pc.toNat + 1)
  have hargc := op.argc_le
  by_cases hn : s.pc.toNat + op.argc ≤ 32767
  · refine .inr ⟨hn, ?_⟩
    have hge : op.argc ≤ (s.memory.window (s.pc.toNat + 1) (min 3 (32767 - s.pc.toNat))).length := by omega
    simp only [fetch, wordsAtPc_inside h, decode_cons _ hw hge]
    exact ⟨_, Opcode.build_opcode _ _ _ _, rfl⟩
  · refine .inl ⟨by omega, ?_⟩
    have hlt : (s.memory.window (s.pc.toNat + 1) (min 3 (32767 - s.pc.toNat))).length < op.argc := by omega
    simp only [fetch, wordsAtPc_inside h, decode, hw, if_pos hlt, fetchCause]

/-- A fetched instruction's words lie inside memory, so the provisional advance does not wrap (R15, R63). -/
theorem fetch_ok_pc {s : State} {i : Instr} (h : fetch s = .ok i) :
    s.pc.toNat + i.opcode.argc ≤ 32767 := by
  by_cases hp : s.pc.toNat ≤ 32767
  · cases hw : decodeOpcode (s.memory.read s.pc.toNat) with
    | none => rw [fetch_unknown hp hw] at h; cases h
    | some op =>
      rcases fetch_known hp hw with ⟨_, e⟩ | ⟨hn, j, hj, e⟩ <;> rw [e] at h <;> cases h
      rw [hj]; exact hn
  · rw [fetch_outside (by omega)] at h; cases h

theorem nextPc_toNat {s : State} {i : Instr} (h : fetch s = .ok i) :
    (nextPc i s.pc).toNat = s.pc.toNat + 1 + i.opcode.argc := by
  have := fetch_ok_pc h
  have := i.opcode.argc_le
  have h1 : (1 : Word).toNat = 1 := rfl
  simp only [nextPc, BitVec.toNat_add, BitVec.toNat_ofNat, h1]
  omega

end Sys2Proof.Machine
end

