-- ==== Sys2Proof/Laws/Safety.lean ====
section
/-! SUPPORT. How the invariant's parts are read and kept by the updates that meet it. -/

namespace Sys2Proof.Machine

/-- The stack clause of the invariant, word by word. -/
theorem stackClause_iff (k : List Word) :
    (k.all fun w => w.toNat ≤ 32768) = true ↔ ∀ w ∈ k, w.toNat ≤ 32768 := by
  simp

/-- A register write of a resolved value keeps the invariant. -/
theorem StateInv.wrote {s t : State} {d w : Word} (hi : StateInv s) (h : Wrote s d w t) : StateInv t := by
  obtain ⟨k, v, _, hv, rfl⟩ := h.eq
  refine ⟨hi.1, fun j => ?_, hi.2.2.1, hi.2.2.2⟩
  have hj := hi.2.1 j
  have hle := val_ok_le hi.2.1 hv
  simp only [State.withStatus_reg, State.withReg_reg]
  split <;> assumption

/-- A fault keeps the invariant: it writes none of the state the invariant speaks of. -/
theorem StateInv.takeFault {s : State} (c : FaultCause) (hi : StateInv s) : StateInv (takeFault s c) := hi

/-- The advance past an instruction that was fetched, and its trace entry, keep the invariant (R15, R63). -/
theorem StateInv.enter {s : State} {i : Instr} (hi : StateInv s) (hf : fetch s = .ok i) : StateInv (enter i s) := by
  have hn := nextPc_toNat hf
  have hp := fetch_ok_pc hf
  refine ⟨by rw [enter_pc, hn]; omega, fun k => ?_, ?_, ?_⟩
  · rw [enter_reg]; exact hi.2.1 k
  · rw [enter_stack]; exact hi.2.2.1
  · rw [enter_memory]; exact hi.2.2.2

@[simp] theorem SafeRun_zero (s : State) : SafeRun 0 s ↔ True := Iff.rfl

/-- A safe run of one more step, read from its first step. -/
theorem SafeRun_succ (n : Nat) (s : State) :
    SafeRun (n + 1) s ↔
      s.status = .halted ∨ (Admitted s ∧ MeetsR134 s ∧ ∀ t, step s = .next t → SafeRun n t) := Iff.rfl

end Sys2Proof.Machine
end

