-- ==== Sys2Proof/Tests/Slice0.lean ====
section
/-! SUPPORT. The model's own tests, expected results from spec/95_test_vectors.md (the vector is named at each), and a witness for the hypotheses of each statement. -/

namespace Sys2Proof.Tests

open Sys2Proof.Machine

/-- The machine just loaded with an image (95_test_vectors.md section 0). -/
def loaded (image : List Word) : State := { State.reset with memory := Memory.ofImage image }

/-- The state a step answers, if it does. -/
def got (r : Result) : Option State :=
  match r with
  | .next t => some t
  | .fault _ => none
  | .refused _ => none

/-- What a test looks at after one step. -/
def seen {α : Type} (s : State) (f : State → α) : Option α := (got (step s)).map f

/-- The part of a state a faulting vector fixes. -/
def fault (t : State) : Status × FaultReason × Word × Word := (t.status, t.faultReason, t.faultInfo, t.pc)

/-! ### WellFormed: an ill-formed term for each check (R47, R48) -/

theorem test_wellFormed_accepts : WellFormed (.add 32768 32775 32767) = true := by decide
theorem test_wellFormed_refuses_literal_destination : WellFormed (.set 32767 7) = false := by decide
theorem test_wellFormed_refuses_invalid_destination : WellFormed (.pop 32776) = false := by decide
theorem test_wellFormed_refuses_invalid_value : WellFormed (.push 32776) = false := by decide
theorem test_wellFormed_refuses_each_role :
    [WellFormed (.set 5 7), WellFormed (.set 32768 40000), WellFormed (.in_ 5), WellFormed (.out 32776),
     WellFormed (.jmp 65535), WellFormed (.call 32776), WellFormed (.jt 40000 1), WellFormed (.jt 1 40000),
     WellFormed (.jf 40000 1), WellFormed (.jf 1 40000), WellFormed (.eq 1 1 1), WellFormed (.gt 32768 40000 1),
     WellFormed (.add 32768 1 40000), WellFormed (.mul 5 1 1), WellFormed (.mod 32768 40000 1),
     WellFormed (.and 5 1 1), WellFormed (.or 32768 1 40000), WellFormed (.not 5 7), WellFormed (.not 32768 40000),
     WellFormed (.rmem 5 100), WellFormed (.rmem 32768 40000), WellFormed (.wmem 40000 5),
     WellFormed (.wmem 100 40000)].all (· == false) = true := by decide

/-! ### Decode: every constructor by words written out from R50's numbers and R47's operand words -/

theorem test_decode_halt : decode [0x0000] = .ok (.halt, []) := by decide
theorem test_decode_set : decode [0x0001, 0x8000, 0x04D2] = .ok (.set 32768 1234, []) := by decide
theorem test_decode_push : decode [0x0002, 0x8002] = .ok (.push 32770, []) := by decide
theorem test_decode_pop : decode [0x0003, 0x8001] = .ok (.pop 32769, []) := by decide
theorem test_decode_eq : decode [0x0004, 0x8000, 0x8001, 0x0005] = .ok (.eq 32768 32769 5, []) := by decide
theorem test_decode_gt : decode [0x0005, 0x8000, 0x0006, 0x0005] = .ok (.gt 32768 6 5, []) := by decide
theorem test_decode_jmp : decode [0x0006, 0x000A] = .ok (.jmp 10, []) := by decide
theorem test_decode_jt : decode [0x0007, 0x0001, 0x0014] = .ok (.jt 1 20, []) := by decide
theorem test_decode_jf : decode [0x0008, 0x0005, 0xFFFF] = .ok (.jf 5 65535, []) := by decide
theorem test_decode_add : decode [0x0009, 0x8000, 0x7FFF, 0x0001] = .ok (.add 32768 32767 1, []) := by decide
theorem test_decode_mul : decode [0x000A, 0x8000, 0x0003, 0x0004] = .ok (.mul 32768 3 4, []) := by decide
theorem test_decode_mod : decode [0x000B, 0x8000, 0x0007, 0x0003] = .ok (.mod 32768 7 3, []) := by decide
theorem test_decode_and : decode [0x000C, 0x8000, 0x000C, 0x000A] = .ok (.and 32768 12 10, []) := by decide
theorem test_decode_or : decode [0x000D, 0x8000, 0x000C, 0x000A] = .ok (.or 32768 12 10, []) := by decide
theorem test_decode_not : decode [0x000E, 0x8000, 0x0000] = .ok (.not 32768 0, []) := by decide
theorem test_decode_rmem : decode [0x000F, 0x8000, 0x0064] = .ok (.rmem 32768 100, []) := by decide
theorem test_decode_wmem : decode [0x0010, 0x0064, 0x0005] = .ok (.wmem 100 5, []) := by decide
theorem test_decode_call : decode [0x0011, 0x8001] = .ok (.call 32769, []) := by decide
theorem test_decode_ret : decode [0x0012, 0x0000] = .ok (.ret, [0]) := by decide
theorem test_decode_out : decode [0x0013, 0x0041] = .ok (.out 65, []) := by decide
theorem test_decode_in : decode [0x0014, 0x8000] = .ok (.in_ 32768, []) := by decide
theorem test_decode_noop : decode [0x0015] = .ok (.noop, []) := by decide
theorem test_decode_rejects_first_undefined : decode [0x0016] = .error (.unknownOpcode 22) := by decide
theorem test_decode_compares_the_whole_word : decode [0x0113, 0x0041] = .error (.unknownOpcode 275) := by decide
theorem test_decode_rejects_cut_window : decode [0x0007, 0x0001] = .error .windowCut := by decide
theorem test_decode_rejects_no_word : decode [] = .error .noWord := by decide
theorem test_decodeTableWord_counts_bits_on :
    decodeTableWord 64 0x0001_7FFF_8001_0009 = some (.add 32769 32767 1) := by decide
theorem test_decodeTableWord_operands_beyond_nbits_are_zero : decodeTableWord 16 0x8001_0003 = some (.pop 0) := by
  decide

/-! ### One step per instruction -/

/-- V-C1. -/
theorem test_halt : seen (loaded [0]) (fun t => (t.status, t.pc)) = some (.halted, 1) := by decide
/-- V-O2. -/
theorem test_set : seen ((loaded [1, 32769, 32768]).withReg 0 7) (fun t => (t.reg 1, t.pc)) = some (7, 3) := by decide
/-- V-O8. -/
theorem test_set_destination_first :
    seen (loaded [1, 5, 40000]) fault = some (.fault, .invalidRegister, 5, 3) := by decide
/-- V-SM2. -/
theorem test_push : seen ((loaded [2, 32770]).withReg 2 99) (fun t => (t.stack, t.pc)) = some ([99], 2) := by decide
/-- V-SM4. -/
theorem test_pop : seen ((loaded [3, 32769]).withStack [9, 7]) (fun t => (t.reg 1, t.stack)) = some (9, [7]) := by decide
/-- V-SM12. -/
theorem test_pop_resolves :
    seen (((loaded [3, 32769]).withStack [32768]).withReg 0 55) (fun t => (t.reg 1, t.stack)) = some (55, []) := by decide
/-- V-K3. -/
theorem test_eq : seen ((loaded [4, 32768, 32769, 5]).withReg 1 5) (fun t => (t.reg 0, t.pc)) = some (1, 4) := by decide
/-- V-K2. -/
theorem test_eq_writes_zero : seen ((loaded [4, 32768, 5, 6]).withReg 0 9) (fun t => t.reg 0) = some 0 := by decide
/-- V-K9. -/
theorem test_gt : seen (loaded [5, 32768, 32767, 0]) (fun t => t.reg 0) = some 1 := by decide
/-- V-K8. -/
theorem test_gt_order : seen ((loaded [5, 32768, 5, 6]).withReg 0 9) (fun t => t.reg 0) = some 0 := by decide
/-- V-C3. -/
theorem test_jmp : seen ((loaded [6, 32771]).withReg 3 300) (fun t => t.pc) = some 300 := by decide
/-- V-C5. -/
theorem test_jmp_invalid : seen (loaded [6, 32776]) fault = some (.fault, .invalidOperand, 32776, 2) := by decide
/-- V-C8. -/
theorem test_jt : seen (loaded [7, 32767, 20]) (fun t => t.pc) = some 20 := by decide
/-- V-C9. -/
theorem test_jt_not_taken : seen (loaded [7, 0, 65535]) (fun t => (t.status, t.pc)) = some (.run, 3) := by decide
/-- V-C12. -/
theorem test_jf : seen (loaded [8, 0, 20]) (fun t => t.pc) = some 20 := by decide
/-- V-C15. -/
theorem test_jf_invalid : seen (loaded [8, 0, 65535]) fault = some (.fault, .invalidOperand, 65535, 3) := by decide
/-- V-A5. -/
theorem test_add : seen ((loaded [9, 32768, 32768, 32768]).withReg 0 20000) (fun t => t.reg 0) = some 7232 := by decide
/-- V-A30. -/
theorem test_add_sources_first :
    seen (loaded [9, 100, 40000, 2]) fault = some (.fault, .invalidOperand, 40000, 4) := by decide
/-- V-A12. -/
theorem test_mul : seen (loaded [10, 32768, 12345, 6789]) (fun t => t.reg 0) = some 22429 := by decide
/-- V-A15. -/
theorem test_mod : seen (loaded [11, 32768, 3, 7]) (fun t => t.reg 0) = some 3 := by decide
/-- V-A33. -/
theorem test_mod_zero_first : seen (loaded [11, 5, 5, 0]) fault = some (.fault, .arithmeticFault, 0, 4) := by decide
/-- V-A23. -/
theorem test_and : seen (loaded [12, 32768, 32767, 21845]) (fun t => t.reg 0) = some 21845 := by decide
/-- V-A24b. -/
theorem test_or : seen (loaded [13, 32768, 21845, 10922]) (fun t => t.reg 0) = some 32767 := by decide
/-- V-A27. -/
theorem test_not : seen (loaded [14, 32768, 21845]) (fun t => (t.reg 0, t.pc)) = some (10922, 3) := by decide
/-- V-SM13. -/
theorem test_rmem_resolves_again :
    seen (((loaded [15, 32768, 100]).withReg 3 4242).withMemory ((Memory.ofImage [15, 32768, 100]).write 100 32771))
      (fun t => t.reg 0) = some 4242 := by decide
/-- V-SM15. -/
theorem test_rmem_destination_before_word :
    seen ((loaded []).withMemory ((Memory.ofImage [15, 5, 100]).write 100 40000)) fault
      = some (.fault, .invalidRegister, 5, 3) := by decide
/-- V-SM18. -/
theorem test_wmem : seen ((loaded [16, 32768, 9]).withReg 0 200) (fun t => (t.memory.read 200, t.reg 0)) = some (9, 200) := by
  decide
/-- V-SM24. -/
theorem test_wmem_own_opcode : seen (loaded [16, 0, 21]) (fun t => (t.memory, t.pc)) = some ([(0, 21), (2, 21)], 3) := by
  decide
/-- V-F14. -/
theorem test_call_at_32766 :
    seen ((loaded []).withMemory [(32766, 17)] |>.withPc 32766) (fun t => (t.stack, t.pc)) = some ([32768], 0) := by decide
/-- V-C18. -/
theorem test_call_invalid_pushes_nothing :
    seen (loaded [17, 40000]) (fun t => (fault t, t.stack)) = some ((.fault, .invalidOperand, 40000, 2), []) := by decide
/-- V-C21. -/
theorem test_ret_is_not_resolved : seen ((loaded [18]).withStack [32768]) (fun t => (t.pc, t.stack)) = some (32768, []) := by
  decide
/-- V-C20. -/
theorem test_ret_empty : seen (loaded [18]) fault = some (.fault, .emptyStack, 0, 1) := by decide
/-- V-IO2 and V-IO6. -/
theorem test_out : seen ((loaded [19, 321]).withOutq [1, 2]) (fun t => t.outq) = some [1, 2, 65] := by decide
/-- V-IO11. -/
theorem test_in : seen ((loaded [20, 32775]).withInq [255, 1]) (fun t => (t.reg 7, t.inq, t.pc)) = some (255, [1], 2) := by
  decide
/-- V-IO9. -/
theorem test_in_blocked : seen (loaded [20, 5]) (fun t => (t.status, t.pc)) = some (.waitInput, 0) := by decide
/-- V-F5. -/
theorem test_noop_at_top :
    seen ((loaded []).withMemory [(32767, 21)] |>.withPc 32767) (fun t => (t.status, t.pc)) = some (.run, 32768) := by decide

/-! ### Fetch stage, trace, host commands -/

/-- V-F6. -/
theorem test_fetch_past_memory :
    seen ((loaded []).withPc 32768) fault = some (.fault, .invalidAddress, 32768, 32768) := by decide
/-- V-F10. -/
theorem test_fetch_cut_window :
    seen ((loaded []).withMemory [(32765, 9)] |>.withPc 32765) fault = some (.fault, .invalidAddress, 32768, 32765) := by
  decide
/-- V-F18. -/
theorem test_trace_then_fault :
    seen ((loaded [2, 65535]).withTrace true) (fun t => t.logSink)
      = some [.trace 0 2 [65535], .faultLog .invalidOperand 65535] := by decide
/-- V-F19. -/
theorem test_no_trace_of_fetch_fault :
    seen ((loaded [22]).withTrace true) (fun t => t.logSink) = some [.faultLog .unknownOpcode 22] := by decide
/-- P0's image file, `13 00 41 00 00 00`. -/
theorem test_unpack : unpackImage [0x13, 0, 0x41, 0, 0, 0] = some [19, 65, 0] := by decide
/-- S11. -/
theorem test_unpack_odd : unpackImage [0x13, 0, 0x41] = none := by decide

/-! ### Witnesses: for each statement with hypotheses, states and operands that meet them, at boundary values -/

/-- A machine at an `in` with boundary values in its registers and on its stack. -/
def sample : State :=
  { (loaded [20, 32768]) with
    regs := (((Vector.replicate 8 0).set 0 200).set 3 32767).set 7 1
    stack := [32768, 7]
    inq := [104] }

/-- A state no run reaches: a register over 32767. -/
def overfull : State := sample.withReg 2 40000

theorem witness_EncodeOfDecodeIsIdentity : decode [0x0003, 0x8001, 9] = .ok (.pop 32769, [9]) := by decide
theorem witness_ExactlyTwentyTwoWordsAreOpcodes :
    (21 : Word).toNat ≤ 21 ∧ 21 < (22 : Word).toNat ∧ 21 < (65535 : Word).toNat ∧ decodeOpcode 0 = some .halt := by decide
theorem witness_StepRunsTheInstructionAtPc :
    Admitted sample ∧ StandsAtPc sample (.in_ 32768) ∧
    StandsAtPc ((loaded []).withMemory [(32764, 9), (32765, 32775)] |>.withPc 32764) (.add 32775 0 0) := by decide
theorem witness_FetchStageFaults :
    Admitted (sample.withPc 32768) ∧ 32768 ≤ (sample.withPc 32768).pc.toNat ∧
    21 < ((loaded [22]).memory.read (loaded [22]).pc.toNat).toNat ∧
    Memory.read [(32767, 19)] 32767 = (Instr.out 0).opcode.number ∧ 32767 < 32767 + (Instr.out 0).operands.length := by
  decide
theorem witness_StepExistsExactlyWhenAdmitted :
    Admitted (sample.withStatus .waitInput) ∧ Admitted (sample.withStatus .run) ∧
    (sample.withStatus .halted).status = .halted ∧ (sample.withStatus .fault).status = .fault ∧
    (sample.withStatus .unloaded).status = .unloaded := by decide
theorem witness_PlacedTableWordRunsNext : decodeTableWord 16 9 = some (.add 0 0 0) := by decide
theorem witness_StatusFollowsOutcome :
    (∃ t, exec .halt sample = .next t) ∧ (∃ t, exec (.in_ 32768) (loaded []) = .next t) ∧
    ∃ t, exec (.in_ 5) sample = .next t :=
  ⟨⟨_, rfl⟩, ⟨_, rfl⟩, ⟨_, rfl⟩⟩
theorem witness_FaultsArePrecise :
    (∃ t, step (loaded [22]) = .next t ∧ t.status = .fault) ∧ ∃ t, step (loaded [2, 65535]) = .next t ∧ t.status = .fault :=
  ⟨⟨_, rfl, rfl⟩, ⟨_, rfl, rfl⟩⟩
theorem witness_BlockedInChangesNothing :
    (∃ t, step (loaded [20, 5]) = .next t ∧ t.status = .waitInput) ∧ (loaded [20, 5]).traceEnabled = false :=
  ⟨⟨_, rfl, rfl⟩, rfl⟩
theorem witness_FedInCompletesOnce :
    Admitted (loaded [20, 32775]) ∧ StandsAtPc (loaded [20, 32775]) (.in_ 32775) ∧ (loaded [20, 32775]).inq = [] ∧
    NamesReg 32775 7 ∧ ∃ t, step (loaded [20, 32775]) = .next t :=
  ⟨by decide, by decide, by decide, by decide, ⟨_, rfl⟩⟩
theorem witness_TracingIsInvisible : ∃ t, step (sample.withTrace true) = .next t := ⟨_, rfl⟩
theorem witness_EveryStepKeepsTheInvariant :
    StateInv sample ∧ (∃ t, step sample = .next t) ∧ (∃ t, feedInput 255 sample = .next t) ∧
    (∃ p, drainOutput sample = .next p) ∧ ([20, 32768] : List Word).length ≤ 32768 :=
  ⟨by decide, ⟨_, rfl⟩, ⟨_, rfl⟩, ⟨_, rfl⟩, by decide⟩
theorem witness_EveryReachableMachineMeetsTheInvariant : Reachable (load [20, 32768] sample).1 := .loaded _ _ rfl
theorem witness_LoadResetsTheMachine :
    (List.replicate 2 (21 : Word)).length ≤ 32768 ∧ 32768 < (List.replicate 32769 (21 : Word)).length ∧
    (List.replicate 32768 (21 : Word)).length ≤ 32768 := by
  refine ⟨?_, ?_, ?_⟩ <;> rw [List.length_replicate] <;> omega
theorem witness_UnloadedMachineAdmitsOnlyLoad : powerOn.status = .unloaded ∧ ([] : List Word).length ≤ 32768 :=
  ⟨rfl, by decide⟩
theorem witness_HostCommandsChangeOnlyTheirOwn : (sample.withStatus .halted).status ≠ .unloaded := by decide
theorem witness_StoredWordIsReadBack :
    RegsResolved sample ∧ Resolves sample 32767 32767 ∧ Resolves sample 32775 1 ∧ NamesReg 32768 0 ∧
    (∃ t, exec (.wmem 32767 32775) sample = .next t ∧ Resolves t 32771 32767 ∧ Resolves t 200 200) ∧
    (200 : Word) ≠ 32767 ∧ Resolves sample (sample.memory.read 200) 0 :=
  ⟨by decide, by decide, by decide, by decide, ⟨_, rfl, by decide, by decide⟩, by decide, by decide⟩
theorem witness_CanonicalMemoriesAreDetermined :
    Memory.wf [(0, 21), (32767, 65535)] = true ∧ Memory.wf [] = true ∧ Memory.wf [(1, 0)] = false ∧
    Memory.wf [(32768, 1)] = false ∧ Memory.wf [(2, 1), (1, 1)] = false := by decide
theorem witness_StoredWordIsFetchedNext :
    (∃ t, exec (.wmem 3 22) (sample.withPc 3) = .next t ∧ t.status = .run ∧ Resolves (sample.withPc 3) 3 t.pc) ∧
    Resolves (sample.withPc 3) 22 22 ∧ 21 < (22 : Word).toNat ∧
    (Instr.out 0).opcode.number = 19 ∧ Resolves (sample.withPc 3) 19 19 ∧ 3 + (Instr.out 0).operands.length ≤ 32767 :=
  ⟨⟨_, rfl, rfl, by decide⟩, by decide, by decide, by decide, by decide, by decide⟩
theorem witness_frames :
    (∃ t, exec (.wmem 100 5) sample = .next t) ∧ (∃ t, exec (.pop 32769) sample = .next t) ∧
    (∃ t, exec (.push 7) sample = .next t) ∧ (∃ t, exec (.call 7) sample = .next t) ∧
    (∃ t, exec .ret sample = .next t) ∧ (∃ t, exec (.out 7) sample = .next t) ∧
    (∃ t, exec (.in_ 32768) sample = .next t) ∧ (∃ t, exec (.set 5 7) sample = .next t ∧ t.status = .fault) ∧
    (∃ t, exec (.set 32775 7) sample = .next t ∧ t.status ≠ .fault) ∧ Resolves sample 100 100 ∧
    destination (.set 5 7) = some 5 ∧ NotReg 5 ∧ destination (.set 32775 7) = some 32775 ∧ NamesReg 32775 7 :=
  ⟨⟨_, rfl⟩, ⟨_, rfl⟩, ⟨_, rfl⟩, ⟨_, rfl⟩, ⟨_, rfl⟩, ⟨_, rfl⟩, ⟨_, rfl⟩, ⟨_, rfl, rfl⟩, ⟨_, rfl, by decide⟩, by decide,
   by decide, by decide, by decide, by decide⟩
theorem witness_InstructionsRaiseOnlyTheirFaults :
    StateInv sample ∧ StateInv (loaded []) ∧ (∃ t, exec .ret (loaded []) = .next t ∧ t.status = .fault) ∧
    (∃ t, exec (.mod 32768 5 0) sample = .next t ∧ t.status = .fault) ∧
    (∃ t, exec (.pop 32776) sample = .next t ∧ t.status = .fault) ∧
    ∃ t, exec (.out 32776) sample = .next t ∧ t.status = .fault :=
  ⟨by decide, by decide, ⟨_, rfl, rfl⟩, ⟨_, rfl, rfl⟩, ⟨_, rfl, rfl⟩, ⟨_, rfl, rfl⟩⟩
theorem witness_WellFormedInstructionsFaultOnlyOnData :
    StateInv (sample.withMemory [(100, 32776)]) ∧ WellFormed (.rmem 32775 100) = true ∧
    (∃ t, exec (.rmem 32775 100) (sample.withMemory [(100, 32776)]) = .next t ∧ t.status = .fault) ∧
    WellFormed (.pop 32768) = true ∧ (∃ t, exec (.pop 32768) (loaded []) = .next t ∧ t.status = .fault) ∧
    WellFormed (.mod 32768 0 32769) = true ∧ ∃ t, exec (.mod 32768 0 32769) sample = .next t ∧ t.status = .fault :=
  ⟨by decide, by decide, ⟨_, rfl, rfl⟩, by decide, ⟨_, rfl, rfl⟩, by decide, ⟨_, rfl, rfl⟩⟩
theorem witness_SafeRunsNeverFault_data :
    StateInv sample ∧ OnGoodData (.pop 32768) sample ∧ OnGoodData .ret sample ∧ OnGoodData (.mod 32768 5 32775) sample ∧
    OnGoodData (.rmem 32768 32767) sample ∧ Admitted sample ∧ StandsAtPc sample (.in_ 32768) ∧
    WellFormed (.in_ 32768) = true ∧ OnGoodData (.in_ 32768) sample :=
  ⟨by decide, (by decide : sample.stack ≠ []), (by decide : sample.stack ≠ []),
   (by decide : ¬ Resolves sample 32775 0), ⟨32767, by decide, by decide⟩, by decide, by decide, by decide, trivial⟩
theorem witness_SafeRunsNeverFault :
    StateInv (loaded [21, 0]) ∧ (loaded [21, 0]).status ≠ .fault ∧ SafeRun 3 (loaded [21, 0]) :=
  ⟨by decide, by decide, .inr ⟨by decide, ⟨.noop, by decide, by decide, trivial⟩, fun t h => by
    cases h
    exact .inr ⟨by decide, ⟨.halt, by decide, by decide, trivial⟩, fun t h => by cases h; exact .inl rfl⟩⟩⟩

/-- The operand classes at their bounds, which the instruction statements' clauses split on: 0, 32767 literal; 32768,
32775 registers; 32776, 65535 invalid; 32767, 32776 no destination. -/
theorem witness_operand_classes :
    Resolves sample 0 0 ∧ Resolves sample 32767 32767 ∧ Resolves sample 32768 200 ∧ Resolves sample 32775 1 ∧
    InvalidWord 32776 ∧ InvalidWord 65535 ∧ NamesReg 32768 0 ∧ NamesReg 32775 7 ∧ NotReg 0 ∧ NotReg 32767 ∧
    NotReg 32776 ∧ NotReg 65535 := by decide
theorem witness_HaltHalts :
    Admitted (loaded []) ∧ (loaded []).pc.toNat ≤ 32767 ∧ (loaded []).memory.read (loaded []).pc.toNat = 0 := by decide
theorem witness_JmpSetsPc : RegsResolved sample ∧ Resolves sample 32771 32767 ∧ InvalidWord 32776 := by decide
theorem witness_JtJumpsIfNonZero :
    Resolves sample 32775 1 ∧ (1 : Word) ≠ 0 ∧ Resolves sample 32769 0 ∧ Resolves sample 32767 32767 ∧ InvalidWord 65535 := by
  decide
theorem witness_JfJumpsIfZero :
    Resolves sample 32769 0 ∧ Resolves sample 32771 32767 ∧ (32767 : Word) ≠ 0 ∧ InvalidWord 32776 := by decide
theorem witness_CallPushesAdvancedPcAndJumps : Resolves sample 32768 200 ∧ InvalidWord 32776 := by decide
theorem witness_RetPopsIntoPc : sample.stack = 32768 :: [7] ∧ (loaded [18]).stack = [] := by decide
theorem witness_CallThenRetReturns : ∃ t, exec (.call 32767) sample = .next t ∧ t.status = .run := ⟨_, rfl, rfl⟩
theorem witness_PushPushesTheResolvedValue : RegsResolved sample ∧ Resolves sample 32771 32767 ∧ InvalidWord 65535 := by
  decide
theorem witness_PopStoresTheTop :
    sample.stack = 32768 :: [7] ∧ NamesReg 32775 7 ∧ Resolves sample 32768 200 ∧ (loaded []).stack = [] ∧
    sample.stack ≠ [] ∧ NotReg 32776 := by decide
theorem witness_SetStoresTheResolvedValue :
    RegsResolved sample ∧ NamesReg 32775 7 ∧ Resolves sample 32771 32767 ∧ NotReg 32767 ∧ InvalidWord 32776 := by decide
theorem witness_RmemStoresTheResolvedMemoryWord :
    Resolves sample 32771 32767 ∧ (32767 : Word).toNat ≤ 32767 ∧ NamesReg 32775 7 ∧
    Resolves sample (sample.memory.read 32767) 0 ∧ InvalidWord 32776 ∧ NotReg 5 ∧
    (Resolves (sample.withMemory [(100, 32776)]) 100 100 ∧ InvalidWord (Memory.read [(100, 32776)] 100)) ∧
    Resolves overfull 32770 40000 ∧ 32767 < (40000 : Word).toNat := by decide
theorem witness_WmemStoresTheResolvedValue :
    RegsResolved sample ∧ Resolves sample 0 0 ∧ Resolves sample 32771 32767 ∧ (32767 : Word).toNat ≤ 32767 ∧
    InvalidWord 32776 ∧ Resolves overfull 32770 40000 ∧ 32767 < (40000 : Word).toNat := by decide
theorem witness_PushThenPopReturnsTheValue :
    RegsResolved sample ∧ Resolves sample 32771 32767 ∧ NamesReg 32768 0 ∧ ∃ t, exec (.push 32771) sample = .next t :=
  ⟨by decide, by decide, by decide, ⟨_, rfl⟩⟩
theorem witness_BinaryRule :
    RegsResolved sample ∧ Resolves sample 32771 32767 ∧ Resolves sample 32767 32767 ∧ NamesReg 32771 3 ∧
    InvalidWord 32776 ∧ NotReg 32776 := by decide
theorem witness_ModWritesTheRemainder :
    RegsResolved sample ∧ Resolves sample 32771 32767 ∧ Resolves sample 32775 1 ∧ (1 : Word) ≠ 0 ∧ NamesReg 32768 0 ∧
    Resolves sample 32769 0 ∧ InvalidWord 32776 ∧ NotReg 32767 := by decide
theorem witness_NotWritesTheFifteenBitComplement :
    Resolves sample 32771 32767 ∧ Resolves sample 0 0 ∧ NamesReg 32771 3 ∧ InvalidWord 65535 ∧ NotReg 0 := by decide
theorem witness_NotTwiceIsIdentity :
    RegsResolved sample ∧ Resolves sample 32771 32767 ∧ NamesReg 32768 0 ∧ NamesReg 32769 1 ∧
    ∃ t, exec (.not 32768 32771) sample = .next t ∧ ∃ u, exec (.not 32769 32768) t = .next u :=
  ⟨by decide, by decide, by decide, by decide, ⟨_, rfl, ⟨_, rfl⟩⟩⟩
theorem witness_OutQueuesTheLowByte : Resolves sample 32771 32767 ∧ InvalidWord 32776 := by decide
theorem witness_InReadsOneByteOrBlocks :
    sample.inq = 104 :: [] ∧ NamesReg 32775 7 ∧ (loaded []).inq = [] ∧ sample.inq ≠ [] ∧ NotReg 5 := by decide
theorem witness_NoopOnlyCompletes :
    Admitted ((loaded []).withMemory [(32767, 21)] |>.withPc 32767) ∧
    ((loaded []).withMemory [(32767, 21)] |>.withPc 32767).memory.read 32767 = 21 ∧
    ((loaded []).withMemory [(32767, 21)] |>.withPc 32767).pc = 32767 ∧
    ((loaded []).withMemory [(32767, 21)] |>.withPc 32767).traceEnabled = false := by decide

end Sys2Proof.Tests
end

section
/-! SUPPORT. Proofs of the state family: what every step and every host command keeps, what `load` resets, and, for all
22 instructions at once, which elements of the state an instruction can change and how. -/

namespace Sys2Proof.Machine

/-! ### The host's commands -/

theorem load_of_fits {image : List Word} (s : State) (h : image.length ≤ 32768) :
    load image s = (loadedState image s, none) := by
  rw [load, if_neg (Nat.not_lt.2 h)]

theorem load_of_too_large {image : List Word} (s : State) (h : 32768 < image.length) :
    load image s = (unconstructed s, some .imageTooLarge) := by
  rw [load, if_pos h]

/-- Only an image that fits loads (R111, R128). -/
theorem fits_of_load_succeeds {image : List Word} {s : State} (h : (load image s).2 = none) :
    image.length ≤ 32768 := by
  by_contra hlong
  rw [load_of_too_large s (by omega)] at h
  cases h

theorem loadedState_reg (image : List Word) (s : State) (k : Fin 8) : (loadedState image s).reg k = 0 := by
  simp [loadedState, State.reg]

/-- All a `feed_input` that answers a next state can have done (R122). -/
theorem feedInput_next {b : Byte} {s t : State} (h : feedInput b s = .next t) :
    s.status ≠ .unloaded ∧ t = enqueueInput s b := by
  cases hs : s.status <;> simp only [feedInput, hs] at h <;> cases h <;> exact ⟨nofun, rfl⟩

/-- All a `drain_output` that answers a next state can have done (R123). -/
theorem drainOutput_next {s : State} {p : List Byte × State} (h : drainOutput s = .next p) :
    s.status ≠ .unloaded ∧ p = (s.outq, s.withOutq []) := by
  cases hs : s.status <;> simp only [drainOutput, hs] at h <;> cases h <;> exact ⟨nofun, rfl⟩

/-! ### What keeps the invariant of R26 -/

theorem StateInv.loadedState {image : List Word} (s : State) (h : image.length ≤ 32768) :
    StateInv (loadedState image s) :=
  ⟨Nat.zero_le _, fun k => by rw [loadedState_reg]; decide, rfl, Memory.wf_ofImage h⟩

theorem StateInv.load {image : List Word} (s : State) (h : image.length ≤ 32768) : StateInv (load image s).1 := by
  rw [load_of_fits s h]
  exact StateInv.loadedState s h

theorem StateInv.withPc {s : State} {a : Word} (hi : StateInv s) (ha : a.toNat ≤ 32768) : StateInv (s.withPc a) :=
  ⟨ha, hi.2⟩

theorem StateInv.stackPush {s : State} {v : Word} (hi : StateInv s) (hv : v.toNat ≤ 32768) :
    StateInv (stackPush s v) := by
  obtain ⟨hpc, hregs, hstack, hmem⟩ := hi
  refine ⟨hpc, hregs, (stackClause_iff _).2 ?_, hmem⟩
  exact List.forall_mem_cons.2 ⟨hv, (stackClause_iff _).1 hstack⟩

/-- The word a pop takes off is in the stack's range, and the rest still meets the invariant. -/
theorem StateInv.popped {s : State} {w : Word} {rest : List Word} (hi : StateInv s) (hs : s.stack = w :: rest) :
    w.toNat ≤ 32768 ∧ StateInv (s.withStack rest) := by
  obtain ⟨hpc, hregs, hstack, hmem⟩ := hi
  rw [stackClause_iff, hs, List.forall_mem_cons] at hstack
  obtain ⟨hw, hrest⟩ := hstack
  exact ⟨hw, hpc, hregs, (stackClause_iff _).2 hrest, hmem⟩

theorem StateInv.stored {s : State} {a : Nat} (v : Word) (hi : StateInv s) (ha : a ≤ 32767) :
    StateInv (s.withMemory (s.memory.write a v)) := by
  obtain ⟨hpc, hregs, hstack, hmem⟩ := hi
  exact ⟨hpc, hregs, hstack, Memory.wf_write v (by omega) hmem⟩

/-- What an operand resolves to is in range wherever a jump target or a stack word is asked for (R11, R13, R16). -/
theorem StateInv.val_le {s : State} {w v : Word} (hi : StateInv s) (h : val s w = .ok v) : v.toNat ≤ 32768 := by
  obtain ⟨-, hregs, -⟩ := hi
  have := val_ok_le hregs h
  omega

/-- Undoing the provisional advance of a blocked `in` stays in range, since `pc` is past the two words of the `in`
(R64, R102). -/
theorem StateInv.blocked {s : State} (hi : StateInv s) (h : 2 ≤ s.pc.toNat) : StateInv (s.withPc (s.pc - 2)) := by
  obtain ⟨hpc, hrest⟩ := hi
  exact ⟨by simp only [State.withPc_pc]; bv_omega, hrest⟩

/-- Every instruction's effect keeps the invariant, on a state whose `pc` is past the instruction's words (R64). -/
theorem StateInv.effect {i : Instr} {s t : State} (hi : StateInv s) (hpc : 1 + i.opcode.argc ≤ s.pc.toNat)
    (h : Effect i s t) : StateInv t := by
  cases i with
  | halt | noop => subst h; exact hi
  | set => exact hi.wrote h
  | eq | gt | add | mul | and | or => obtain ⟨_, _, _, _, hw⟩ := h; exact hi.wrote hw
  | mod => obtain ⟨_, _, _, _, _, _, hw⟩ := h; exact hi.wrote hw
  | not => obtain ⟨_, _, hw⟩ := h; exact hi.wrote hw
  | rmem => obtain ⟨_, _, _, hw⟩ := h; exact hi.wrote hw
  | wmem => obtain ⟨_, x, _, _, ha, rfl⟩ := h; exact hi.stored x ha
  | push => obtain ⟨_, hx, rfl⟩ := h; exact hi.stackPush (hi.val_le hx)
  | pop => obtain ⟨_, _, hs, hw⟩ := h; exact (hi.popped hs).2.wrote hw
  | jmp => obtain ⟨_, ha, rfl⟩ := h; exact hi.withPc (hi.val_le ha)
  | jt | jf =>
    obtain ⟨_, _, ⟨_, _, ha, rfl⟩ | ⟨_, rfl⟩⟩ := h
    · exact hi.withPc (hi.val_le ha)
    · exact hi
  | call => obtain ⟨_, ha, rfl⟩ := h; exact (hi.stackPush hi.1).withPc (hi.val_le ha)
  | ret => obtain ⟨_, _, hs, rfl⟩ := h; exact (hi.popped hs).2.withPc (hi.popped hs).1
  | out => obtain ⟨_, _, rfl⟩ := h; exact hi
  | in_ =>
    obtain ⟨_, rfl⟩ | ⟨_, rest, _, hw⟩ := h
    · exact hi.blocked hpc
    · exact StateInv.wrote (s := s.withInq rest) hi hw

theorem StateInv.step {s t : State} (hi : StateInv s) (h : step s = .next t) : StateInv t := by
  obtain ⟨-, ⟨c, -, rfl⟩ | ⟨i, hf, hx⟩⟩ := step_cases h
  · exact hi.takeFault c
  · have he := hi.enter hf
    obtain ⟨c, rfl⟩ | heff := exec_cases hx
    · exact he.takeFault c
    · refine he.effect ?_ heff
      rw [enter_pc, nextPc_toNat hf]
      omega

theorem StateInv.fed {b : Byte} {s t : State} (hi : StateInv s) (h : feedInput b s = .next t) : StateInv t := by
  obtain ⟨-, rfl⟩ := feedInput_next h
  exact hi

theorem StateInv.drained {s : State} {p : List Byte × State} (hi : StateInv s) (h : drainOutput s = .next p) :
    StateInv p.2 := by
  obtain ⟨-, rfl⟩ := drainOutput_next h
  exact hi

theorem StateInv.traced {s : State} (b : Bool) (hi : StateInv s) : StateInv (setTrace b s) := hi

/-! ### What an instruction's effect leaves, element by element -/

/-- The registers stay, or the one the destination operand names is written (R12, R71). -/
def RegsMove (i : Instr) (old new : Vector Word 8) : Prop :=
  new = old ∨ ∃ d k v, destination i = some d ∧ NamesReg d k ∧ new = old.set k v

/-- The stack, top first, when `i` completes (R73). -/
def StackMove (i : Instr) (old new : List Word) : Prop :=
  match i with
  | .push _ | .call _ => ∃ w, new = w :: old
  | .pop _ | .ret => ∃ w, old = w :: new
  | _ => new = old

/-- The input queue, oldest byte first, when `i` completes or blocks (R76, R102). -/
def InqMove (i : Instr) (old new : List Byte) : Prop :=
  match i with
  | .in_ _ => new = old ∨ ∃ b, old = b :: new
  | _ => new = old

/-- The output queue, oldest byte first, when `i` completes (R76, R101). -/
def OutqMove (i : Instr) (old new : List Byte) : Prop :=
  match i with
  | .out _ => ∃ b, new = old ++ [b]
  | _ => new = old

/-- The advanced `pc` when `i` completes (R64): free for the control family, else kept unless the `in` blocks. -/
def PcMove (i : Instr) (s t : State) : Prop :=
  match i with
  | .jmp _ | .jt _ _ | .jf _ _ | .call _ | .ret => True
  | _ => t.status ≠ .waitInput → t.pc = s.pc

/-- What the effect of `i` leaves of every element of the state but memory. -/
structure EffectFrame (i : Instr) (s t : State) : Prop where
  regs : RegsMove i s.regs t.regs
  stack : StackMove i s.stack t.stack
  inq : InqMove i s.inq t.inq
  outq : OutqMove i s.outq t.outq
  pc : PcMove i s t
  noFault : t.status ≠ .fault
  /-- `trace_enabled`, the fault record, the sink and the model's counter are those of `s`. -/
  control : t = { s with
    memory := t.memory, regs := t.regs, pc := t.pc, stack := t.stack, inq := t.inq, outq := t.outq,
    status := t.status }

/-- An instruction that ends in a register write has changed, beside its destination, only what it took its value
from: the stack or the input queue. -/
theorem Wrote.effectFrame {i : Instr} {s t : State} {d w : Word} {k : List Word} {q : List Byte}
    (h : Wrote ((s.withStack k).withInq q) d w t) (hd : destination i = some d) (hk : StackMove i s.stack k)
    (hq : InqMove i s.inq q) (ho : OutqMove i s.outq s.outq) (hp : t.pc = s.pc → PcMove i s t) :
    EffectFrame i s t := by
  obtain ⟨j, v, hj, _, rfl⟩ := h.eq
  exact ⟨.inr ⟨d, j, v, hd, hj, rfl⟩, hk, hq, ho, hp rfl, nofun, rfl⟩

/-- An instruction that takes nothing off the stack or the input queue and ends in a register write. -/
theorem Wrote.effectFrame_here {i : Instr} {s t : State} {d w : Word} (h : Wrote s d w t)
    (hd : destination i = some d) (hk : StackMove i s.stack s.stack) (hq : InqMove i s.inq s.inq)
    (ho : OutqMove i s.outq s.outq) (hp : t.pc = s.pc → PcMove i s t) : EffectFrame i s t :=
  Wrote.effectFrame (k := s.stack) (q := s.inq) h hd hk hq ho hp

theorem Effect.frame {i : Instr} {s t : State} (h : Effect i s t) : EffectFrame i s t := by
  cases i with
  | halt | noop => subst h; exact ⟨.inl rfl, rfl, rfl, rfl, fun _ => rfl, nofun, rfl⟩
  | set => exact h.effectFrame_here rfl rfl rfl rfl fun e _ => e
  | eq | gt | add | mul | and | or =>
    obtain ⟨_, _, _, _, hw⟩ := h
    exact hw.effectFrame_here rfl rfl rfl rfl fun e _ => e
  | mod => obtain ⟨_, _, _, _, _, _, hw⟩ := h; exact hw.effectFrame_here rfl rfl rfl rfl fun e _ => e
  | not => obtain ⟨_, _, hw⟩ := h; exact hw.effectFrame_here rfl rfl rfl rfl fun e _ => e
  | rmem => obtain ⟨_, _, _, hw⟩ := h; exact hw.effectFrame_here rfl rfl rfl rfl fun e _ => e
  | wmem => obtain ⟨_, _, _, _, _, rfl⟩ := h; exact ⟨.inl rfl, rfl, rfl, rfl, fun _ => rfl, nofun, rfl⟩
  | push => obtain ⟨x, _, rfl⟩ := h; exact ⟨.inl rfl, ⟨x, rfl⟩, rfl, rfl, fun _ => rfl, nofun, rfl⟩
  | pop =>
    obtain ⟨w, rest, hs, hw⟩ := h
    exact Wrote.effectFrame (k := rest) (q := s.inq) hw rfl ⟨w, hs⟩ rfl rfl fun e _ => e
  | jmp => obtain ⟨_, _, rfl⟩ := h; exact ⟨.inl rfl, rfl, rfl, rfl, trivial, nofun, rfl⟩
  | jt | jf =>
    obtain ⟨_, _, ⟨_, _, _, rfl⟩ | ⟨_, rfl⟩⟩ := h <;> exact ⟨.inl rfl, rfl, rfl, rfl, trivial, nofun, rfl⟩
  | call => obtain ⟨_, _, rfl⟩ := h; exact ⟨.inl rfl, ⟨s.pc, rfl⟩, rfl, rfl, trivial, nofun, rfl⟩
  | ret => obtain ⟨w, _, hs, rfl⟩ := h; exact ⟨.inl rfl, ⟨w, hs⟩, rfl, rfl, trivial, nofun, rfl⟩
  | out => obtain ⟨x, _, rfl⟩ := h; exact ⟨.inl rfl, rfl, rfl, ⟨x.setWidth 8, rfl⟩, fun _ => rfl, nofun, rfl⟩
  | in_ =>
    obtain ⟨_, rfl⟩ | ⟨b, rest, hq, hw⟩ := h
    · exact ⟨.inl rfl, rfl, .inl rfl, rfl, fun hb => absurd rfl hb, nofun, rfl⟩
    · exact Wrote.effectFrame (k := s.stack) (q := rest) hw rfl rfl (.inr ⟨b, hq⟩) rfl fun e _ => e

/-- Every answer of `exec` is a fault taken in the state it was given, which leaves all the elements the frame speaks of,
or meets the frame. -/
theorem exec_frame {i : Instr} {s t : State} (h : exec i s = .next t) :
    (∃ c, t = takeFault s c) ∨ EffectFrame i s t :=
  (exec_cases h).imp_right Effect.frame

/-! ### The obligations -/

/-- Settles O16: a step is a fault or the effect of the instruction fetched, and each keeps the invariant; the host's
commands touch none of its parts but by a reset. -/
theorem everyStepKeepsTheInvariant : Obligations.EveryStepKeepsTheInvariant := fun s hi =>
  ⟨fun _ => hi.step, fun _ _ => hi.fed, fun _ => hi.drained, fun b => hi.traced b, fun _ => StateInv.load s⟩

/-- Settles O17, by induction on the run: `load` establishes the invariant and every command keeps it. -/
theorem everyReachableMachineMeetsTheInvariant : Obligations.EveryReachableMachineMeetsTheInvariant := by
  intro s hs
  induction hs with
  | loaded _ s h => exact StateInv.load s (fits_of_load_succeeds h)
  | stepped _ h ih => exact ih.step h
  | fed _ _ h ih => exact ih.fed h
  | drained _ h ih => exact ih.drained h
  | traced b _ ih => exact ih.traced b

/-- Settles O15: reset's parts are closed values, and a load that fits establishes the invariant. -/
theorem resetMeetsTheInvariant : Obligations.ResetMeetsTheInvariant :=
  ⟨by decide, fun _ s h => StateInv.load s h⟩

/-- Settles O18: `load` by its two cases, the memory it leaves by `Memory.read_ofImage`. -/
theorem loadResetsTheMachine : Obligations.LoadResetsTheMachine := by
  intro image s
  constructor
  · intro hfits
    rw [load_of_fits s hfits]
    have hread (a : Nat) : (loadedState image s).memory.read a = image[a]?.getD 0 := Memory.read_ofImage image a
    refine ⟨rfl, fun a _ => hread a, fun a ha => ?_, loadedState_reg image s, rfl, rfl, rfl, rfl, rfl, rfl⟩
    rw [hread, List.getElem?_eq_none ha, Option.getD_none]
  · intro hlong
    rw [load_of_too_large s hlong]
    exact ⟨rfl, rfl⟩

/-- Settles O20: each command but `load` and `set_trace` asks for another status than `UNLOADED`. -/
theorem unloadedMachineAdmitsOnlyLoad : Obligations.UnloadedMachineAdmitsOnlyLoad := by
  refine ⟨rfl, rfl, fun s hs => ⟨fun t h => ?_, fun b t h => ?_, fun p h => ?_, fun _ => rfl, fun image h => ?_⟩⟩
  · obtain ⟨hrun | hwait, -⟩ := step_cases h
    · simp [hs] at hrun
    · simp [hs] at hwait
  · exact (feedInput_next h).1 hs
  · exact (drainOutput_next h).1 hs
  · rw [load_of_fits s h]
    exact .inl rfl

/-- Settles O26, from the frame's registers: a write goes to the one register the destination names. -/
theorem onlyTheDestinationRegisterChanges : Obligations.OnlyTheDestinationRegisterChanges := by
  intro i s t h
  obtain ⟨c, rfl⟩ | hf := exec_frame h
  · exact ⟨fun _ => rfl, fun _ _ _ => rfl, fun _ _ _ _ _ _ => rfl⟩
  obtain hsame | ⟨d, k, v, hd, hk, hset⟩ := hf.regs
  · exact ⟨fun _ => hsame, fun _ _ _ => hsame, fun _ _ _ _ j _ => by rw [State.reg, hsame, State.reg]⟩
  refine ⟨fun hnone => ?_, fun d' hd' hnot => ?_, fun d' k' hd' hk' j hj => ?_⟩
  · simp [hd] at hnone
  · obtain rfl : d = d' := by simpa [hd] using hd'
    omega
  · obtain rfl : d = d' := by simpa [hd] using hd'
    obtain rfl : k = k' := Fin.ext (by omega)
    rw [State.reg, hset]
    exact State.withReg_reg_ne s v hj

/-- Settles O27, from the frame's stack; a fault leaves the stack. -/
theorem stackFrame : Obligations.StackFrame := by
  intro i s t h
  obtain ⟨c, rfl⟩ | hf := exec_frame h
  · exact ⟨fun _ _ _ _ => rfl, fun _ _ => .inl rfl, fun _ _ => .inl rfl⟩
  have hstack := hf.stack
  refine ⟨fun hpush hcall hpop hret => ?_, ?_, ?_⟩
  · cases i with
    | push v => exact absurd rfl (hpush v)
    | call v => exact absurd rfl (hcall v)
    | pop d => exact absurd rfl (hpop d)
    | ret => exact absurd rfl hret
    | _ => exact hstack
  · rintro v (rfl | rfl) <;> exact .inr hstack
  · rintro d (rfl | rfl) <;> exact .inr hstack

/-- Settles O28, from the frame's queues; a fault leaves both, so a byte whose destination is refused stays (R68). -/
theorem queueFrame : Obligations.QueueFrame := by
  intro i s t h
  obtain ⟨c, rfl⟩ | hf := exec_frame h
  · exact ⟨fun _ => rfl, fun _ => rfl, fun _ _ => .inl rfl, fun _ _ => .inl rfl⟩
  have hinq := hf.inq
  have houtq := hf.outq
  refine ⟨fun hin => ?_, fun hout => ?_, ?_, ?_⟩
  · cases i with
    | in_ d => exact absurd rfl (hin d)
    | _ => exact hinq
  · cases i with
    | out v => exact absurd rfl (hout v)
    | _ => exact houtq
  · rintro d rfl
    exact hinq
  · rintro v rfl
    exact .inr houtq

/-- Settles O29: taking a fault writes the record and logs it; an effect writes neither. -/
theorem controlStateFrame : Obligations.ControlStateFrame := by
  intro i s t h
  obtain ⟨c, rfl⟩ | hf := exec_frame h
  · exact ⟨rfl, rfl, fun hno => absurd rfl hno, fun _ => rfl⟩
  · refine ⟨by rw [hf.control], by rw [hf.control], fun _ => ?_, fun hfault => absurd hfault hf.noFault⟩
    exact ⟨by rw [hf.control], by rw [hf.control], by rw [hf.control]⟩

/-- Settles O30, from the frame's `pc`. -/
theorem provisionalPcIsKept : Obligations.ProvisionalPcIsKept := by
  intro i s t h
  obtain ⟨c, rfl⟩ | hf := exec_frame h
  · exact ⟨fun _ => rfl, fun _ _ _ _ _ _ => rfl⟩
  refine ⟨fun hfault => absurd hfault hf.noFault, fun hjmp hjt hjf hcall hret hrun => ?_⟩
  have hpc := hf.pc
  cases i with
  | jmp g => exact absurd rfl (hjmp g)
  | jt c g => exact absurd rfl (hjt c g)
  | jf c g => exact absurd rfl (hjf c g)
  | call g => exact absurd rfl (hcall g)
  | ret => exact absurd rfl hret
  | _ => exact hpc hrun

end Sys2Proof.Machine
end

section
/-! SUPPORT. Proofs of the memory family: the bytes of an image file, the canonical form determines memory, and what
`wmem` leaves for `rmem`, for the next fetch and for every other address. -/

namespace Sys2Proof

/-! ### The catalog's bounds (R44, R77) -/

theorem Opcode.number_le (op : Opcode) : op.number.toNat ≤ 21 := by cases op <;> decide

/-- A word above the last opcode number is no opcode. -/
theorem decodeOpcode_eq_none {w : Word} (h : 21 < w.toNat) : decodeOpcode w = none := by
  cases hw : decodeOpcode w with
  | none => rfl
  | some op =>
    have := op.number_le
    rw [number_of_decodeOpcode hw] at this
    omega

theorem Instr.operands_length (i : Instr) : i.operands.length = i.opcode.argc := by cases i <;> rfl

end Sys2Proof

namespace Sys2Proof.Machine

/-! ### The bytes of an image file -/

/-- The word unpacked from two bytes has the first one low (R58). -/
theorem toNat_append_bytes (hi lo : Byte) : (hi ++ lo).toNat = lo.toNat + 256 * hi.toNat := by
  rw [BitVec.toNat_append, ← Nat.shiftLeft_add_eq_or_of_lt lo.isLt, Nat.shiftLeft_eq]
  omega

theorem append_bytes_eq_ofNat (hi lo : Byte) : hi ++ lo = BitVec.ofNat 16 (lo.toNat + 256 * hi.toNat) := by
  rw [← toNat_append_bytes, BitVec.ofNat_toNat, BitVec.setWidth_eq]

/-- A word is its high byte over its low byte, the two bytes `packImage` writes for it. -/
theorem high_append_low (w : Word) : (w >>> 8).setWidth 8 ++ w.setWidth 8 = w := by
  apply BitVec.eq_of_toNat_eq
  simp only [toNat_append_bytes, BitVec.toNat_setWidth, BitVec.toNat_ushiftRight, Nat.shiftRight_eq_div_pow]
  have := w.isLt
  omega

theorem unpackImage_packImage (ws : List Word) : unpackImage (packImage ws) = some ws := by
  induction ws with
  | nil => rfl
  | cons w ws ih => simp only [packImage, unpackImage, ih, high_append_low]

/-- Bytes are taken in pairs, so only an odd number of them leaves one over. -/
theorem unpackImage_eq_none_iff (bytes : List Byte) : unpackImage bytes = none ↔ bytes.length % 2 = 1 := by
  induction bytes using unpackImage.induct with
  | case1 => simp [unpackImage]
  | case2 b => simp [unpackImage]
  | case3 lo hi rest hnone ih =>
    have hodd : rest.length % 2 = 1 := ih.1 hnone
    simp only [unpackImage, hnone, List.length_cons, true_iff]
    omega
  | case4 lo hi rest ws hsome ih =>
    have heven : ¬ rest.length % 2 = 1 := fun hodd => by simp [ih.2 hodd] at hsome
    simp only [unpackImage, hsome, List.length_cons, reduceCtorEq, false_iff]
    omega

theorem loadBytes_eq_none_iff (bytes : List Byte) (s : State) :
    loadBytes bytes s = none ↔ unpackImage bytes = none := by
  cases h : unpackImage bytes <;> simp [loadBytes, h]

/-! ### The canonical form determines memory -/

/-- An address that does not read 0 is not below the first one listed. -/
theorem Memory.head_le_of_read_ne_zero {lo b c : Nat} {u : Word} {m : Memory}
    (h : Memory.wfFrom lo ((b, u) :: m) = true) (hc : Memory.read ((b, u) :: m) c ≠ 0) : b ≤ c := by
  rw [Memory.wfFrom_cons] at h
  have hb : Memory.wfFrom b ((b, u) :: m) = true := (Memory.wfFrom_cons ..).2 ⟨Nat.le_refl b, h.2⟩
  by_contra hlt
  exact hc (Memory.read_below hb (by omega))

theorem Memory.read_head_ne_zero {lo b : Nat} {u : Word} {m : Memory}
    (h : Memory.wfFrom lo ((b, u) :: m) = true) : b < 32768 ∧ Memory.read ((b, u) :: m) b ≠ 0 := by
  obtain ⟨-, hb, hu, -⟩ := (Memory.wfFrom_cons ..).1 h
  exact ⟨hb, by simpa [Memory.read_cons] using hu⟩

/-- The tails of two memories that list the same first cell read alike where the whole memories do. -/
theorem Memory.read_tails_eq {b a : Nat} {u : Word} {m n : Memory} (hm : Memory.wfFrom (b + 1) m = true)
    (hn : Memory.wfFrom (b + 1) n = true) (h : Memory.read ((b, u) :: m) a = Memory.read ((b, u) :: n) a) :
    m.read a = n.read a := by
  by_cases ha : a = b
  · rw [Memory.read_below hm (by omega), Memory.read_below hn (by omega)]
  · simpa only [Memory.read_cons, if_neg ha] using h

/-- By induction on both lists: the first listed address is the least that does not read 0, the same in both. -/
theorem Memory.eq_of_wfFrom_of_read_eq {m : Memory} : ∀ {lo : Nat} {n : Memory}, Memory.wfFrom lo m = true →
    Memory.wfFrom lo n = true → (∀ a, a < 32768 → m.read a = n.read a) → m = n := by
  induction m with
  | nil =>
    intro lo n _ hn hread
    cases n with
    | nil => rfl
    | cons cell n =>
      obtain ⟨hb, hne⟩ := Memory.read_head_ne_zero hn
      exact absurd (hread _ hb).symm hne
  | cons cell m ih =>
    obtain ⟨b, u⟩ := cell
    intro lo n hm hn hread
    obtain ⟨hb, hbne⟩ := Memory.read_head_ne_zero hm
    cases n with
    | nil => exact absurd (hread b hb) hbne
    | cons cell n =>
      obtain ⟨c, w⟩ := cell
      obtain ⟨hc, hcne⟩ := Memory.read_head_ne_zero hn
      have hcb : c ≤ b := Memory.head_le_of_read_ne_zero hn (hread b hb ▸ hbne)
      have hbc : b ≤ c := Memory.head_le_of_read_ne_zero hm (hread c hc ▸ hcne)
      obtain rfl : b = c := Nat.le_antisymm hbc hcb
      obtain rfl : u = w := by simpa [Memory.read_cons] using hread b hb
      obtain ⟨-, -, -, hm'⟩ := (Memory.wfFrom_cons ..).1 hm
      obtain ⟨-, -, -, hn'⟩ := (Memory.wfFrom_cons ..).1 hn
      rw [ih hm' hn' fun a ha => Memory.read_tails_eq hm' hn' (hread a ha)]

/-! ### `wmem`, `rmem`, and memory in every other instruction -/

/-- `wmem` of two operands that resolve, to an address inside memory (R90). -/
theorem exec_wmem {s : State} {p v a x : Word} (hp : val s p = .ok a) (hv : val s v = .ok x)
    (ha : a.toNat ≤ 32767) :
    exec (.wmem p v) s = .next ((s.withMemory (s.memory.write a.toNat x)).withStatus .run) :=
  orRaise_ok s proceed ((writeMem_val s hp hv).trans (memWrite_inside s x ha))

/-- `rmem` of an address inside memory whose word resolves, into a register (R71, R89). -/
theorem exec_rmem {s : State} {d p a v : Word} {k : Fin 8} (hd : NamesReg d k) (hp : val s p = .ok a)
    (ha : a.toNat ≤ 32767) (hv : val s (s.memory.read a.toNat) = .ok v) :
    exec (.rmem d p) s = .next ((s.withReg k v).withStatus .run) := by
  have hread : readMem s p = .ok (s.memory.read a.toNat) := (readMem_val s hp).trans (memRead_inside s ha)
  have hwrite : writeReg s d (s.memory.read a.toNat) = .ok (s.withReg k v) :=
    regIdx_of_namesReg hd ▸ writeReg_val s (isReg_of_namesReg hd) hv
  exact (orRaise_ok s _ hread).trans (orRaise_ok s proceed hwrite)

/-- A `wmem` that leaves status `RUN` has stored its value at its address. -/
theorem exec_wmem_completed {s t : State} {p v : Word} (h : exec (.wmem p v) s = .next t) (hrun : t.status = .run) :
    ∃ a x, val s p = .ok a ∧ val s v = .ok x ∧ a.toNat ≤ 32767 ∧
      t = (s.withMemory (s.memory.write a.toNat x)).withStatus .run := by
  obtain ⟨c, rfl⟩ | heff := exec_cases h
  · simp at hrun
  · exact heff

theorem Wrote.memory {s t : State} {d w : Word} (h : Wrote s d w t) : t.memory = s.memory := by
  obtain ⟨_, _, _, _, rfl⟩ := h.eq
  rfl

/-- Only `wmem` has an effect on memory (R29). -/
theorem Effect.memory {i : Instr} {s t : State} (h : Effect i s t) (hi : ∀ p v, i ≠ .wmem p v) :
    t.memory = s.memory := by
  cases i with
  | wmem p v => exact absurd rfl (hi p v)
  | halt | noop => subst h; rfl
  | set => exact Wrote.memory h
  | eq | gt | add | mul | and | or => obtain ⟨_, _, _, _, hw⟩ := h; exact hw.memory
  | mod => obtain ⟨_, _, _, _, _, _, hw⟩ := h; exact hw.memory
  | not => obtain ⟨_, _, hw⟩ := h; exact hw.memory
  | rmem => obtain ⟨_, _, _, hw⟩ := h; exact hw.memory
  | pop => obtain ⟨_, _, _, hw⟩ := h; exact hw.memory
  | push | jmp | call | out => obtain ⟨_, _, rfl⟩ := h; rfl
  | jt | jf => obtain ⟨_, _, ⟨_, _, _, rfl⟩ | ⟨_, rfl⟩⟩ := h <;> rfl
  | ret => obtain ⟨_, _, _, rfl⟩ := h; rfl
  | in_ =>
    obtain ⟨_, rfl⟩ | ⟨_, _, _, hw⟩ := h
    · rfl
    · exact hw.memory

/-! ### The word at `pc` and the next step -/

/-- The step at a word that is no opcode (R62). -/
theorem step_unknown {s : State} (hs : Admitted s) (hpc : s.pc.toNat ≤ 32767)
    (hw : decodeOpcode (s.memory.read s.pc.toNat) = none) :
    step s = .next (faulted s .unknownOpcode (s.memory.read s.pc.toNat)) := by
  rw [step_admitted hs, fetch_unknown hpc hw]
  rfl

/-- The step at an opcode word whose operand window is inside memory runs an instruction of that opcode (R60). -/
theorem step_known {s : State} {op : Opcode} (hs : Admitted s) (hpc : s.pc.toNat + op.argc ≤ 32767)
    (hw : decodeOpcode (s.memory.read s.pc.toNat) = some op) :
    ∃ j : Instr, j.opcode = op ∧ step s = exec j (entered s j) := by
  obtain ⟨hcut, -⟩ | ⟨-, j, hj, hfetch⟩ := fetch_known (by omega) hw
  · omega
  · exact ⟨j, hj, by rw [step_admitted hs, hfetch, ← enter_eq_entered]⟩

/-! ### The obligations -/

/-- Settles O5: packing is undone pair by pair, and an unpacked pair is low byte plus 256 times high byte. -/
theorem imageFileIsLittleEndian : Obligations.ImageFileIsLittleEndian := by
  refine ⟨unpackImage_packImage, fun lo hi => ?_, fun bytes s => ?_⟩
  · simp only [unpackImage, append_bytes_eq_ofNat]
  · rw [loadBytes_eq_none_iff, unpackImage_eq_none_iff]

/-- Settles O22: under R11 every address resolved to is inside memory, so the `wmem` completes, and the read after it
is that of `Memory.read_write`; the registers the `rmem` resolves with are those the `wmem` left. -/
theorem storedWordIsReadBack : Obligations.StoredWordIsReadBack := by
  intro s t wa wv q d addr x k hregs hwa hwv hd ht
  rw [resolves_iff] at hwa hwv
  rw [exec_wmem hwa hwv (val_ok_le hregs hwa)] at ht
  replace ht := Host.Outcome.next.inj ht
  have hmem : t.memory = s.memory.write addr.toNat x := ht ▸ rfl
  have hsame : t.regs = s.regs := ht ▸ rfl
  have hrmem (b v : Word) (hq : Resolves t q b) (hv : val s (t.memory.read b.toNat) = .ok v) :
      exec (.rmem d q) t = .next { t with regs := s.regs.set k v } := by
    rw [resolves_iff] at hq
    have hb : b.toNat ≤ 32767 := val_ok_le hregs (val_congr hsame q ▸ hq)
    rw [exec_rmem hd hq hb ((val_congr hsame _).trans hv)]
    subst ht
    rfl
  refine ⟨fun hq => hrmem addr x hq ?_, fun b v hq hb hv => hrmem b v hq ?_⟩
  · rw [hmem, Memory.read_write_same]
    exact val_lit s (val_ok_le hregs hwv)
  · rw [hmem, Memory.read_write_ne _ _ fun e => hb (BitVec.eq_of_toNat_eq e)]
    exact (resolves_iff s _ v).1 hv

/-- Settles O23, by `Memory.eq_of_wfFrom_of_read_eq` from address 0. -/
theorem canonicalMemoriesAreDetermined : Obligations.CanonicalMemoriesAreDetermined :=
  fun _ _ => Memory.eq_of_wfFrom_of_read_eq

/-- Settles O24: the completed `wmem` left its value at `pc`, inside memory, and the fetch there sees it. -/
theorem storedWordIsFetchedNext : Obligations.StoredWordIsFetchedNext := by
  intro s t wa wv v h hrun hwa hwv
  rw [resolves_iff] at hwa hwv
  obtain ⟨a, x, ha, hx, hle, ht⟩ := exec_wmem_completed h hrun
  obtain rfl : t.pc = a := by simpa [hwa] using ha
  obtain rfl : v = x := by simpa [hwv] using hx
  have hread : t.memory.read t.pc.toNat = v := by
    have hmem : t.memory = s.memory.write t.pc.toNat v := congrArg State.memory ht
    rw [hmem, Memory.read_write_same]
  refine ⟨fun hv => ?_, fun i hi hfit => ?_⟩
  · rw [step_unknown (.inl hrun) hle (hread ▸ decodeOpcode_eq_none hv), hread]
  · rw [i.operands_length] at hfit
    exact step_known (.inl hrun) hfit (by rw [hread, ← hi, decodeOpcode_number])

/-- Settles O25: a fault leaves memory, and of the effects only `wmem`'s writes it, at the one address. -/
theorem onlyWmemChangesMemory : Obligations.OnlyWmemChangesMemory := by
  intro i s t h
  obtain ⟨c, rfl⟩ | heff := exec_cases h
  · exact ⟨fun _ _ => rfl, fun _ _ _ _ _ _ _ => rfl⟩
  refine ⟨fun hi a => by rw [heff.memory hi], ?_⟩
  rintro p v addr rfl hp a hne
  obtain ⟨b, x, hb, -, -, rfl⟩ := heff
  rw [resolves_iff, hb] at hp
  cases hp
  exact Memory.read_write_ne s.memory x hne

end Sys2Proof.Machine
end

section
/-! SUPPORT. Proofs of the encoding family: decoder and encoder undo each other, and every fault that an instruction can
raise in a state that meets the invariant, with its cause. -/

namespace Sys2Proof

/-! ### Operand words and the decoder's window (R44, R45) -/

/-- An opcode built on three words has as its operands the first of them, as many as its argument count. -/
theorem Opcode.operands_build (op : Opcode) (a b c : Word) : (op.build a b c).operands = [a, b, c].take op.argc := by
  cases op <;> rfl

/-- The words read from a window are its own, up to any number of operands it holds. -/
theorem take_operandAt {window : List Word} {n : Nat} (hn : n ≤ 3) (hlen : n ≤ window.length) :
    [operandAt window 0, operandAt window 1, operandAt window 2].take n = window.take n := by
  match n, window with
  | 0, _ => rfl
  | 1, _ :: _ => rfl
  | 2, _ :: _ :: _ => rfl
  | 3, _ :: _ :: _ :: _ => rfl

/-- Settles O1: the opcode word selects the instruction's opcode, and the window behind it begins with its operands. -/
theorem decodeOfEncodeIsIdentity : Obligations.DecodeOfEncodeIsIdentity := by
  intro i rest
  have hwindow : i.opcode.argc ≤ (i.operands ++ rest).length := by
    rw [List.length_append, i.operands_length]
    exact Nat.le_add_right ..
  calc decode (encode i ++ rest)
      = .ok (i, (i.operands ++ rest).drop i.opcode.argc) := by
        rw [encode, List.cons_append, decode_cons _ (decodeOpcode_number _) hwindow, i.build_operands]
    _ = .ok (i, rest) := by rw [← i.operands_length, List.drop_left]

/-- Settles O2: what was decoded has the opcode its word selects, and as operands the words taken from the window. -/
theorem encodeOfDecodeIsIdentity : Obligations.EncodeOfDecodeIsIdentity := by
  intro ws rest i h
  obtain ⟨w, tail, op, rfl, hw, hlen, rfl, rfl⟩ := decode_ok h
  rw [encode, Opcode.build_opcode, number_of_decodeOpcode hw, Opcode.operands_build,
    take_operandAt op.argc_le hlen, List.cons_append, List.take_append_drop]

/-- Settles O4: the seven decoded sequences are encodings, so O1 decodes them; 0x0113 is above the last opcode word, and
two operand words are fewer than the three of `add`. -/
theorem writtenOutWordsDecode : Obligations.WrittenOutWordsDecode := by
  have hdecode := decodeOfEncodeIsIdentity
  refine ⟨hdecode .halt [], hdecode (.set 32768 1234) [], hdecode (.eq 32768 5 32775) [],
    hdecode (.add 32769 32767 1) [], hdecode (.wmem 100 5) [0], hdecode (.out 65) [], hdecode .noop [0x0113], ?_, ?_⟩
  · rw [decode, decodeOpcode_eq_none (by decide)]
  · rfl

/-! ### Well-formed operands (R48) -/

/-- The value operands of an instruction: those it resolves. -/
def Instr.values (i : Instr) : List Word :=
  match i with
  | .halt | .ret | .noop | .pop _ | .in_ _ => []
  | .push v | .out v | .jmp v | .call v | .set _ v | .not _ v | .rmem _ v => [v]
  | .jt c t | .jf c t => [c, t]
  | .wmem p v => [p, v]
  | .eq _ x y | .gt _ x y | .add _ x y | .mul _ x y | .mod _ x y | .and _ x y | .or _ x y => [x, y]

/-- Well-formedness read off the roles: the destination is a register, each value operand is valid (R48). -/
theorem wellFormed_eq (i : Instr) : WellFormed i =
    ((Machine.destination i).all WellFormed.dest && i.values.all WellFormed.value) := by
  cases i <;> simp [WellFormed, Machine.destination, Instr.values, Bool.and_assoc]

theorem WellFormed.destination_isReg {i : Instr} (h : WellFormed i = true) {d : Word}
    (hd : Machine.destination i = some d) : ¬ Machine.NotReg d := by
  rw [wellFormed_eq, hd, Bool.and_eq_true] at h
  obtain ⟨hdest, -⟩ := h
  simp only [Option.all_some, WellFormed.dest, decide_eq_true_eq] at hdest
  omega

theorem WellFormed.values_valid {i : Instr} (h : WellFormed i = true) {w : Word} (hw : w ∈ i.values) :
    ¬ Machine.InvalidWord w := by
  rw [wellFormed_eq, Bool.and_eq_true, List.all_eq_true] at h
  obtain ⟨-, hvalues⟩ := h
  have hle := hvalues w hw
  simp only [WellFormed.value, decide_eq_true_eq] at hle
  omega

end Sys2Proof

namespace Sys2Proof.Machine

/-! ### How each primitive fails (R70 to R75) -/

theorem val_error {s : State} {w : Word} {c : FaultCause} (h : val s w = .error c) :
    InvalidWord w ∧ c = ⟨.invalidOperand, w⟩ := by
  obtain ⟨-, e⟩ | ⟨-, e⟩ | ⟨hw, e⟩ := val_cases s w <;> rw [e] at h <;> cases h
  exact ⟨hw, rfl⟩

theorem writeReg_error {s : State} {d w : Word} {c : FaultCause} (h : writeReg s d w = .error c) :
    (NotReg d ∧ c = ⟨.invalidRegister, d⟩) ∨ (InvalidWord w ∧ c = ⟨.invalidOperand, w⟩) := by
  by_cases hd : isReg d = true
  · cases hw : val s w with
    | ok v => rw [writeReg_val s hd hw] at h; cases h
    | error e =>
      rw [writeReg_valError s hd hw] at h
      cases h
      exact .inr (val_error hw)
  · rw [writeReg_notReg s w hd] at h
    cases h
    exact .inl ⟨(not_isReg_iff d).1 hd, rfl⟩

theorem jumpTo_error {s : State} {w : Word} {c : FaultCause} (h : jumpTo s w = .error c) : val s w = .error c := by
  cases hw : val s w with
  | ok v => rw [jumpTo_val s hw] at h; cases h
  | error e => rw [jumpTo_valError s hw] at h; cases h; rfl

theorem stackPop_error {s : State} {c : FaultCause} (h : stackPop s = .error c) :
    s.stack = [] ∧ c = ⟨.emptyStack, 0⟩ := by
  cases hs : s.stack with
  | nil => rw [stackPop_nil s hs] at h; cases h; exact ⟨rfl, rfl⟩
  | cons v rest => rw [stackPop_cons s hs] at h; cases h

theorem modWord_error {x y : Word} {c : FaultCause} (h : modWord x y = .error c) :
    y = 0 ∧ c = ⟨.arithmeticFault, 0⟩ := by
  by_cases hy : y = 0
  · subst hy
    cases h
    exact ⟨rfl, rfl⟩
  · rw [modWord_nonzero x hy] at h
    cases h

/-- Under R11 an address operand that resolves is inside memory, so `ReadMem` fails in resolving it only. -/
theorem readMem_error {s : State} (hr : RegsResolved s) {w : Word} {c : FaultCause} (h : readMem s w = .error c) :
    val s w = .error c := by
  cases hw : val s w with
  | ok a => rw [readMem_val s hw, memRead_inside s (val_ok_le hr hw)] at h; cases h
  | error e => rw [readMem_valError s hw] at h; exact h

/-- All `ReadMem` can have read when it succeeds. -/
theorem readMem_ok {s : State} (hr : RegsResolved s) {w m : Word} (h : readMem s w = .ok m) :
    ∃ a, val s w = .ok a ∧ m = s.memory.read a.toNat := by
  cases hw : val s w with
  | ok a => rw [readMem_val s hw, memRead_inside s (val_ok_le hr hw)] at h; cases h; exact ⟨a, rfl, rfl⟩
  | error e => rw [readMem_valError s hw] at h; cases h

/-- Under R11 `WriteMem` fails in resolving one of its operands only. -/
theorem writeMem_error {s : State} (hr : RegsResolved s) {wa wv : Word} {c : FaultCause}
    (h : writeMem s wa wv = .error c) : val s wa = .error c ∨ val s wv = .error c := by
  cases ha : val s wa with
  | error e => simp only [writeMem, ha] at h; cases h; exact .inl rfl
  | ok a =>
    cases hv : val s wv with
    | error e => simp only [writeMem, ha, hv] at h; cases h; exact .inr rfl
    | ok v => rw [writeMem_val s ha hv, memWrite_inside s v (val_ok_le hr ha)] at h; cases h

/-! ### The causes of faults -/

/-- The faults the instruction `i` can raise in state `s`, each with its cause (R106 to R110). -/
inductive MayRaise (i : Instr) (s : State) : FaultCause → Prop where
  | emptyStack (hi : i = .ret ∨ ∃ d, i = .pop d) (hs : s.stack = []) : MayRaise i s ⟨.emptyStack, 0⟩
  | zeroDivisor {d x y : Word} (hi : i = .mod d x y) (hy : Resolves s y 0) : MayRaise i s ⟨.arithmeticFault, 0⟩
  | destination {d : Word} (hd : destination i = some d) (hn : NotReg d) : MayRaise i s ⟨.invalidRegister, d⟩
  | operand {w : Word} (hw : w ∈ i.values) (hinv : InvalidWord w) : MayRaise i s ⟨.invalidOperand, w⟩
  | memoryWord {d p a : Word} (hi : i = .rmem d p) (ha : Resolves s p a)
      (hinv : InvalidWord (s.memory.read a.toNat)) : MayRaise i s ⟨.invalidOperand, s.memory.read a.toNat⟩

/-- If the result `r` is a FAULT state, it is `s` with a fault taken that `i` can raise there. -/
def RaisesOnly (i : Instr) (s : State) (r : Result) : Prop :=
  ∀ t, r = .next t → t.status = .fault → ∃ c, MayRaise i s c ∧ t = takeFault s c

section
variable {i : Instr} {s : State}

theorem RaisesOnly.next {u : State} (hu : u.status ≠ .fault) : RaisesOnly i s (.next u) := by
  rintro _ ⟨⟩ hf
  exact absurd hf hu

theorem RaisesOnly.proceed (u : State) : RaisesOnly i s (proceed u) := .next nofun

/-- A check raises only what `i` can raise if its errors are such, and so does what follows it. -/
theorem RaisesOnly.orRaise {α : Type} {r : Except FaultCause α} {k : α → Result}
    (herr : ∀ c, r = .error c → MayRaise i s c) (hok : ∀ v, r = .ok v → RaisesOnly i s (k v)) :
    RaisesOnly i s (orRaise r s k) := by
  intro t ht hf
  obtain ⟨c, hc, rfl⟩ | ⟨v, hv, hk⟩ := orRaise_next ht
  · exact ⟨c, herr c hc, rfl⟩
  · exact hok v hv t hk hf

theorem MayRaise.of_val {w : Word} {c : FaultCause} (hw : w ∈ i.values) (h : val s w = .error c) :
    MayRaise i s c := by
  obtain ⟨hinv, rfl⟩ := val_error h
  exact .operand hw hinv

theorem RaisesOnly.val {w : Word} {k : Word → Result} (hw : w ∈ i.values)
    (hok : ∀ v, val s w = .ok v → RaisesOnly i s (k v)) : RaisesOnly i s (Machine.orRaise (val s w) s k) :=
  .orRaise (fun _ => MayRaise.of_val hw) hok

theorem RaisesOnly.jumpTo {w : Word} (hw : w ∈ i.values) :
    RaisesOnly i s (Machine.orRaise (jumpTo s w) s Machine.proceed) :=
  .orRaise (fun _ h => MayRaise.of_val hw (jumpTo_error h)) fun u _ => .proceed u

theorem RaisesOnly.stackPop {k : Word × State → Result} (hi : i = .ret ∨ ∃ d, i = .pop d)
    (hok : ∀ p, stackPop s = .ok p → RaisesOnly i s (k p)) : RaisesOnly i s (Machine.orRaise (stackPop s) s k) := by
  refine .orRaise (fun c h => ?_) hok
  obtain ⟨hs, rfl⟩ := stackPop_error h
  exact .emptyStack hi hs

/-- The closing register write: its destination is no register, or its value word is invalid, for which `i` answers. -/
theorem RaisesOnly.writeReg {s' : State} {d w : Word} (hd : Machine.destination i = some d)
    (hw : InvalidWord w → MayRaise i s ⟨.invalidOperand, w⟩) :
    RaisesOnly i s (Machine.orRaise (writeReg s' d w) s Machine.proceed) := by
  refine .orRaise (fun c h => ?_) fun u _ => .proceed u
  obtain ⟨hn, rfl⟩ | ⟨hinv, rfl⟩ := writeReg_error h
  · exact .destination hd hn
  · exact hw hinv

/-- The register write of a computed result, which is a literal (R92). -/
theorem RaisesOnly.writeResult {s' : State} {d w : Word} (hd : Machine.destination i = some d)
    (hw : w.toNat ≤ 32767) : RaisesOnly i s (Machine.orRaise (Machine.writeReg s' d w) s Machine.proceed) :=
  .writeReg hd fun hinv => by omega

theorem RaisesOnly.writeBinary {f : Word → Word → Word} {d x y : Word} (hr : RegsResolved s)
    (hd : Machine.destination i = some d) (hv : i.values = [x, y])
    (hf : ∀ a b : Word, a.toNat ≤ 32767 → b.toNat ≤ 32767 → (f a b).toNat ≤ 32767) :
    RaisesOnly i s (writeBinary f d x y s) :=
  .val (by simp [hv]) fun a ha => .val (by simp [hv]) fun b hb =>
    .writeResult hd (hf a b (val_ok_le hr ha) (val_ok_le hr hb))

end

theorem addWord_le (x y : Word) : (addWord x y).toNat ≤ 32767 := by rw [addWord_toNat]; omega

theorem mulWord_le (x y : Word) : (mulWord x y).toNat ≤ 32767 := by rw [mulWord_toNat]; omega

theorem modWord_le {x y r : Word} (hx : x.toNat ≤ 32767) (h : modWord x y = .ok r) : r.toNat ≤ 32767 := by
  obtain ⟨-, hr⟩ := modWord_ok h
  exact hr ▸ (Nat.mod_le ..).trans hx

/-- EVERY FAULT `exec` CAN TAKE, in a state that meets the invariant. -/
theorem exec_raisesOnly (i : Instr) {s : State} (hi : StateInv s) : RaisesOnly i s (exec i s) := by
  have ⟨_, hregs, _, _⟩ := hi
  cases i with
  | halt => exact .next nofun
  | noop => exact .proceed s
  | set d v => exact .writeReg rfl (.operand List.mem_cons_self)
  | push v => exact .val List.mem_cons_self fun _ _ => .proceed _
  | pop d =>
    refine .stackPop (.inr ⟨d, rfl⟩) fun p hp => .writeReg rfl fun hinv => ?_
    have := (hi.popped (stackPop_ok hp).1).1
    omega
  | eq d x y | gt d x y => exact .writeBinary hregs rfl rfl fun _ _ _ _ => truthWord_le _
  | add d x y => exact .writeBinary hregs rfl rfl fun a b _ _ => addWord_le a b
  | mul d x y => exact .writeBinary hregs rfl rfl fun a b _ _ => mulWord_le a b
  | and d x y => exact .writeBinary hregs rfl rfl fun _ b ha _ => andWord_le b ha
  | or d x y => exact .writeBinary hregs rfl rfl fun _ _ ha hb => orWord_le ha hb
  | mod d x y =>
    refine .val List.mem_cons_self fun a ha => .val (by simp [Instr.values]) fun b hb => .orRaise ?_ ?_
    · intro c hc
      obtain ⟨rfl, rfl⟩ := modWord_error hc
      exact .zeroDivisor rfl ((resolves_iff ..).2 hb)
    · exact fun r hr => .writeResult rfl (modWord_le (val_ok_le hregs ha) hr)
  | not d x => exact .val List.mem_cons_self fun a _ => .writeResult rfl (notWord_le a)
  | jmp g => exact .jumpTo List.mem_cons_self
  | jt c g =>
    refine .val List.mem_cons_self fun x _ => ?_
    split
    · exact .jumpTo (by simp [Instr.values])
    · exact .proceed s
  | jf c g =>
    refine .val List.mem_cons_self fun x _ => ?_
    split
    · exact .proceed s
    · exact .jumpTo (by simp [Instr.values])
  | rmem d p =>
    refine .orRaise (fun c h => .of_val List.mem_cons_self (readMem_error hregs h)) fun m hm => ?_
    obtain ⟨a, ha, rfl⟩ := readMem_ok hregs hm
    exact .writeReg rfl (.memoryWord rfl ((resolves_iff ..).2 ha))
  | wmem p v =>
    refine .orRaise (fun c h => ?_) fun u _ => .proceed u
    obtain h | h := writeMem_error hregs h <;> exact .of_val (by simp [Instr.values]) h
  | call g => exact .val List.mem_cons_self fun _ _ => .proceed _
  | ret => exact .stackPop (.inl rfl) fun _ _ => .proceed _
  | out v => exact .val List.mem_cons_self fun _ _ => .proceed _
  | in_ d =>
    simp only [exec, execIn, dequeueInput]
    cases s.inq with
    | nil => exact .next nofun
    | cons b rest => exact .writeResult rfl (by rw [BitVec.toNat_setWidth]; omega)

/-- Settles O32: of the causes of a fault, two are operands of the wrong class, and the other three are on data. -/
theorem wellFormedInstructionsFaultOnlyOnData : Obligations.WellFormedInstructionsFaultOnlyOnData := by
  intro i s t hinv hwf h hf
  obtain ⟨c, hc, -⟩ := exec_raisesOnly i hinv t h hf
  cases hc with
  | emptyStack hi hs => exact .inl ⟨hs, hi⟩
  | zeroDivisor hi hy => exact .inr (.inl ⟨_, _, _, hi, hy⟩)
  | destination hd hn => exact absurd hn (WellFormed.destination_isReg hwf hd)
  | operand hw hinvalid => exact absurd hinvalid (WellFormed.values_valid hwf hw)
  | memoryWord hi ha hword => exact .inr (.inr ⟨_, _, _, hi, ha, hword⟩)

end Sys2Proof.Machine
end

section
/-! SUPPORT. Proofs of the step family: the fetch reads what stands at `pc`, a step is that fetch's fault or instruction,
every instruction answers a next state, and the status it leaves follows its outcome. -/

namespace Sys2Proof.Machine

/-! ### What a fetch reads -/

/-- The words a fetch can reach begin with those of an instruction that stands at `pc` (R44, R45). -/
theorem encode_prefix_wordsAtPc {s : State} {i : Instr} (h : StandsAtPc s i) : encode i <+: wordsAtPc s := by
  obtain ⟨hfit, hread⟩ := h
  have hlen : (encode i).length ≤ 4 := by
    have := i.opcode.argc_le
    rw [encode, List.length_cons, i.operands_length]
    omega
  refine List.prefix_iff_getElem?.2 fun k hk => ?_
  rw [wordsAtPc, Memory.window_getElem? _ _ _ _ (by omega), ← hread ⟨k, by omega⟩ hk, List.getElem?_eq_getElem hk]

theorem fetch_of_decode {s : State} {i : Instr} {rest : List Word} (h : decode (wordsAtPc s) = .ok (i, rest)) :
    fetch s = .ok i := by
  simp only [fetch, h]

theorem fetch_standing {s : State} {i : Instr} (h : StandsAtPc s i) : fetch s = .ok i := by
  obtain ⟨rest, hwords⟩ := encode_prefix_wordsAtPc h
  exact fetch_of_decode (hwords ▸ decodeOfEncodeIsIdentity i rest)

theorem decode_of_decodeTableWord {nbits w : Nat} {i : Instr} (h : decodeTableWord nbits w = some i) :
    ∃ rest, decode (tableWords nbits w) = .ok (i, rest) := by
  simp only [decodeTableWord] at h
  split at h
  · next j rest hd => cases h; exact ⟨rest, hd⟩
  · cases h

/-! ### Placing a table word (log entry 7) -/

theorem placeAddress_le (s : State) : (placeAddress s).toNat ≤ 32764 := by
  rw [placeAddress]
  split
  · assumption
  · decide

theorem withFetchWord_pc (s : State) (nbits w : Nat) : (s.withFetchWord nbits w).pc = placeAddress s := by
  simp only [State.withFetchWord, placeFetchWord]
  split <;> rfl

theorem withFetchWord_memory (s : State) (nbits w : Nat) : (s.withFetchWord nbits w).memory =
    s.memory.writeWords (placeAddress s).toNat (tableWords nbits w) := by
  simp only [State.withFetchWord, placeFetchWord]
  split <;> rfl

theorem withFetchWord_admitted (s : State) (nbits w : Nat) : Admitted (s.withFetchWord nbits w) := by
  cases hs : s.status <;> simp [Admitted, State.withFetchWord, placeFetchWord, hs]

/-- The four words stored are those the next fetch reads: the window at the placing address is inside memory. -/
theorem wordsAtPc_withFetchWord (s : State) (nbits w : Nat) :
    wordsAtPc (s.withFetchWord nbits w) = tableWords nbits w := by
  have hwindow : min 4 (32768 - (placeAddress s).toNat) = (tableWords nbits w).length := by
    have := placeAddress_le s
    rw [tableWords, List.length_cons, List.length_cons, List.length_cons, List.length_singleton]
    omega
  rw [wordsAtPc, withFetchWord_pc, withFetchWord_memory, hwindow, Memory.window_writeWords]

/-! ### A step, from what its fetch answers (R59 to R65) -/

theorem step_of_fetch {s : State} {i : Instr} (hs : Admitted s) (hf : fetch s = .ok i) :
    step s = exec i (entered s i) := by
  rw [step_admitted hs, hf, ← enter_eq_entered]

theorem step_of_fetch_error {s : State} {c : FaultCause} (hs : Admitted s) (hf : fetch s = .error c) :
    step s = .next (faulted s c.reason c.info) := by
  rw [step_admitted hs, hf, ← takeFault_eq_faulted]

theorem step_of_gate {s : State} {stop : Result} (h : gate s = some stop) : step s = stop := by
  simp only [step, h]

/-! ### Every instruction answers a next state -/

/-- The result is a next state, and no stop of the model. -/
def Answers (r : Result) : Prop := ∃ t, r = .next t

theorem answers_proceed (s : State) : Answers (proceed s) := ⟨_, rfl⟩

theorem answers_orRaise {α : Type} {r : Except FaultCause α} {s : State} {k : α → Result}
    (h : ∀ v, Answers (k v)) : Answers (orRaise r s k) := by
  cases r with
  | error c => exact ⟨_, rfl⟩
  | ok v => exact h v

/-- A last check, after which the instruction completes. -/
theorem answers_finish {r : Except FaultCause State} {s : State} : Answers (orRaise r s proceed) :=
  answers_orRaise answers_proceed

theorem answers_writeBinary (f : Word → Word → Word) (d x y : Word) (s : State) :
    Answers (writeBinary f d x y s) :=
  answers_orRaise fun _ => answers_orRaise fun _ => answers_finish

/-- No instruction's meaning ends in a stop of the model (R59, R116). -/
theorem answers_exec (i : Instr) (s : State) : Answers (exec i s) := by
  cases i with
  | halt => exact ⟨_, rfl⟩
  | noop => exact answers_proceed s
  | set | jmp | wmem => exact answers_finish
  | eq | gt | add | mul | and | or => exact answers_writeBinary ..
  | push | call | ret | out => exact answers_orRaise fun _ => answers_proceed _
  | pop | not | rmem => exact answers_orRaise fun _ => answers_finish
  | mod => exact answers_orRaise fun _ => answers_orRaise fun _ => answers_orRaise fun _ => answers_finish
  | jt =>
    refine answers_orRaise fun _ => ?_
    split
    · exact answers_finish
    · exact answers_proceed s
  | jf =>
    refine answers_orRaise fun _ => ?_
    split
    · exact answers_proceed s
    · exact answers_finish
  | in_ =>
    simp only [exec, execIn]
    split
    · exact ⟨_, rfl⟩
    · exact answers_finish

theorem answers_step {s : State} (hs : Admitted s) : Answers (step s) := by
  cases hf : fetch s with
  | error c => exact ⟨_, step_of_fetch_error hs hf⟩
  | ok i => exact step_of_fetch hs hf ▸ answers_exec i (entered s i)

/-! ### The status an instruction leaves (R20, R66) -/

theorem outcome_halted_iff (t : State) : t.outcome = some .halted ↔ t.status = .halted := by
  cases h : t.status <;> simp [State.outcome, h]

theorem outcome_needsInput_iff (t : State) : t.outcome = some .needsInput ↔ t.status = .waitInput := by
  cases h : t.status <;> simp [State.outcome, h]

theorem outcome_of_run {t : State} (h : t.status = .run) : t.outcome = some .continue := by
  simp [State.outcome, h]

theorem outcome_of_fault {t : State} (h : t.status = .fault) : t.outcome = some (.fault t.faultReason) := by
  simp [State.outcome, h]

/-- `i` is an `in` that finds the input queue empty (R102). -/
abbrev Starved (i : Instr) (s : State) : Prop := (∃ d, i = .in_ d) ∧ s.inq = []

theorem Starved.status {i : Instr} {s t : State} (hi : Starved i s) (h : exec i s = .next t) :
    t.status = .waitInput := by
  obtain ⟨⟨d, rfl⟩, hq⟩ := hi
  simp only [exec, execIn, dequeueInput, hq] at h
  cases h
  rfl

theorem Wrote.status {s t : State} {d w : Word} (h : Wrote s d w t) : t.status = .run := by
  obtain ⟨_, _, _, _, rfl⟩ := h.eq
  rfl

/-- Every instruction but `halt` and a starved `in` leaves `RUN` when it completes. -/
theorem Effect.status {i : Instr} {s t : State} (h : Effect i s t) (hhalt : i ≠ .halt) (hin : ¬ Starved i s) :
    t.status = .run := by
  cases i with
  | halt => exact absurd rfl hhalt
  | noop => subst h; rfl
  | set => exact Wrote.status h
  | eq | gt | add | mul | and | or => obtain ⟨_, _, _, _, hw⟩ := h; exact hw.status
  | mod => obtain ⟨_, _, _, _, _, _, hw⟩ := h; exact hw.status
  | not => obtain ⟨_, _, hw⟩ := h; exact hw.status
  | rmem | pop => obtain ⟨_, _, _, hw⟩ := h; exact hw.status
  | push | jmp | call | out => obtain ⟨_, _, rfl⟩ := h; rfl
  | jt | jf => obtain ⟨_, _, ⟨_, _, _, rfl⟩ | ⟨_, rfl⟩⟩ := h <;> rfl
  | wmem => obtain ⟨_, _, _, _, _, rfl⟩ := h; rfl
  | ret => obtain ⟨_, _, _, rfl⟩ := h; rfl
  | in_ d =>
    obtain ⟨hq, -⟩ | ⟨_, _, _, hw⟩ := h
    · exact absurd ⟨⟨d, rfl⟩, hq⟩ hin
    · exact hw.status

/-- EVERY STATUS `exec` CAN LEAVE, and when. -/
theorem exec_status {i : Instr} {s t : State} (h : exec i s = .next t) :
    (i = .halt ∧ t.status = .halted) ∨ (Starved i s ∧ t.status = .waitInput) ∨
    (i ≠ .halt ∧ ¬ Starved i s ∧ (t.status = .run ∨ t.status = .fault)) := by
  by_cases hhalt : i = .halt
  · subst hhalt
    cases h
    exact .inl ⟨rfl, rfl⟩
  by_cases hin : Starved i s
  · exact .inr (.inl ⟨hin, hin.status h⟩)
  refine .inr (.inr ⟨hhalt, hin, ?_⟩)
  obtain ⟨c, rfl⟩ | heff := exec_cases h
  · exact .inr rfl
  · exact .inl (heff.status hhalt hin)

/-! ### `push` and `pop` -/

/-- `push` of an operand that resolves (R86). -/
theorem exec_push {s : State} {v x : Word} (hv : val s v = .ok x) :
    exec (.push v) s = .next ((stackPush s x).withStatus .run) :=
  orRaise_ok s _ hv

/-- `pop` of a word that resolves, into a register (R71, R87). -/
theorem exec_pop {s : State} {d w v : Word} {k : Fin 8} {rest : List Word} (hs : s.stack = w :: rest)
    (hd : NamesReg d k) (hw : val s w = .ok v) :
    exec (.pop d) s = .next (((s.withStack rest).withReg k v).withStatus .run) := by
  have hwrite : writeReg (s.withStack rest) d w = .ok ((s.withStack rest).withReg k v) :=
    regIdx_of_namesReg hd ▸ writeReg_val _ (isReg_of_namesReg hd) ((val_congr rfl w).trans hw)
  exact (orRaise_ok s _ (stackPop_cons s hs)).trans (orRaise_ok s proceed hwrite)

/-! ### The obligations -/

/-- Settles O9: the placed state is admitted, and its fetch reads the table word's four words. -/
theorem placedTableWordRunsNext : Obligations.PlacedTableWordRunsNext := by
  intro s nbits w i h
  obtain ⟨rest, hdecode⟩ := decode_of_decodeTableWord h
  rw [← wordsAtPc_withFetchWord s] at hdecode
  exact step_of_fetch (withFetchWord_admitted s nbits w) (fetch_of_decode hdecode)

/-- Settles O10: the three cases of `exec_status` exclude one another, and the outcome is read off the status. -/
theorem statusFollowsOutcome : Obligations.StatusFollowsOutcome := by
  intro i s t h
  rw [outcome_halted_iff, outcome_needsInput_iff]
  obtain ⟨rfl, ht⟩ | ⟨hin, ht⟩ | ⟨hhalt, hin, hrun | hfault⟩ := exec_status h
  · simp [ht]
  · obtain ⟨⟨d, rfl⟩, hq⟩ := hin
    simp [ht, hq]
  · exact ⟨by simp [hrun, hhalt], by simp only [hrun, hin, reduceCtorEq], fun _ _ => .inl (outcome_of_run hrun)⟩
  · exact ⟨by simp [hfault, hhalt], by simp only [hfault, hin, reduceCtorEq],
      fun _ _ => .inr ⟨_, outcome_of_fault hfault⟩⟩

/-- Settles O11: a step's fault is the fetch's or one `exec` takes in the state it was given, since no effect leaves
`FAULT`; and no step starts from `FAULT`. -/
theorem faultsArePrecise : Obligations.FaultsArePrecise := by
  intro s t h ht
  refine ⟨?_, fun u hu => ?_⟩
  · obtain ⟨-, ⟨c, hf, rfl⟩ | ⟨i, hf, hx⟩⟩ := step_cases h
    · exact .inl ⟨c, hf, rfl⟩
    · obtain ⟨c, rfl⟩ | heff := exec_cases hx
      · exact .inr ⟨i, c.reason, c.info, hf, by rw [← takeFault_eq_faulted, enter_eq_entered]⟩
      · exact absurd ht heff.frame.noFault
  · obtain ⟨hrun | hwait, -⟩ := step_cases hu
    · exact absurd (ht.symm.trans hrun) nofun
    · exact absurd (ht.symm.trans hwait) nofun

/-- Settles O46: the value pushed is a literal under R11, so the `pop` stores it as it is and takes it off again. -/
theorem pushThenPopReturnsTheValue : Obligations.PushThenPopReturnsTheValue := by
  intro s t v x d k hregs hv hd ht
  rw [resolves_iff] at hv
  rw [exec_push hv] at ht
  cases ht
  exact exec_pop rfl hd (val_lit _ (val_ok_le hregs hv))

/-- Settles O3: the 22 words are checked one by one, and an opcode's number is the only word that decodes to it. -/
theorem exactlyTwentyTwoWordsAreOpcodes : Obligations.ExactlyTwentyTwoWordsAreOpcodes := by
  have hsome : ∀ n : Fin 22, (decodeOpcode (BitVec.ofNat 16 n)).isSome = true := by decide
  refine ⟨fun w hw => ?_, fun w hw => ?_, fun v w op hv hw => ?_⟩
  · obtain ⟨op, hop⟩ := Option.isSome_iff_exists.1 (hsome ⟨w.toNat, by omega⟩)
    rw [BitVec.ofNat_toNat, BitVec.setWidth_eq] at hop
    exact ⟨op, hop, number_of_decodeOpcode hop⟩
  · have hnone := decodeOpcode_eq_none hw
    exact ⟨hnone, fun rest => by simp only [decode, hnone]⟩
  · exact (number_of_decodeOpcode hv).symm.trans (number_of_decodeOpcode hw)

/-- Settles O6, by `fetch_standing`. -/
theorem stepRunsTheInstructionAtPc : Obligations.StepRunsTheInstructionAtPc :=
  fun _ _ hs h => step_of_fetch hs (fetch_standing h)

/-- Settles O7, by the three faults of the fetch. -/
theorem fetchStageFaults : Obligations.FetchStageFaults := by
  intro s hs
  refine ⟨fun hpc => step_of_fetch_error hs (fetch_outside hpc),
    fun hpc hw => step_unknown hs hpc (decodeOpcode_eq_none hw), fun i hpc hw hcut => ?_⟩
  rw [i.operands_length] at hcut
  obtain ⟨-, hf⟩ | ⟨hfit, -⟩ := fetch_known (op := i.opcode) hpc (by rw [hw, decodeOpcode_number])
  · exact step_of_fetch_error hs hf
  · omega

/-- Settles O8: where admitted, the fetch's fault or the instruction answers; elsewhere the gate stops the step. -/
theorem stepExistsExactlyWhenAdmitted : Obligations.StepExistsExactlyWhenAdmitted := fun _ =>
  ⟨answers_step, fun h => step_of_gate (by simp only [gate, h]), fun h => step_of_gate (by simp only [gate, h]),
    fun h => step_of_gate (by simp only [gate, h])⟩

end Sys2Proof.Machine
end

section
/-! SUPPORT. Proofs of the control family: what each of `halt`, `jmp`, `jt`, `jf`, `call` and `ret` does, an equation per
case of its operands. -/

namespace Sys2Proof.Machine

/-! ### Raising `InvalidOperand`, and the jump the control instructions share (R72, R106) -/

/-- An instruction that resolves an invalid word faults with it, whatever it would do next (R106). -/
theorem orRaise_val_invalid {s : State} {w : Word} (k : Word → Result) (h : InvalidWord w) :
    orRaise (val s w) s k = .next (faulted s .invalidOperand w) :=
  orRaise_error s k (val_of_invalidWord s h)

theorem jump_resolved {s : State} {g a : Word} (hg : val s g = .ok a) :
    orRaise (jumpTo s g) s proceed = .next ((s.withPc a).withStatus .run) :=
  orRaise_ok s proceed (jumpTo_val s hg)

theorem jump_invalid {s : State} {g : Word} (hg : InvalidWord g) :
    orRaise (jumpTo s g) s proceed = .next (faulted s .invalidOperand g) :=
  orRaise_error s proceed (jumpTo_valError s (val_of_invalidWord s hg))

/-! ### The conditional jumps: taken they are the jump, not taken they complete without reading the target -/

section
variable {s : State} {c x : Word} (g : Word)

theorem exec_jt_nonzero (hc : val s c = .ok x) (hx : x ≠ 0) :
    exec (.jt c g) s = orRaise (jumpTo s g) s proceed :=
  (orRaise_ok s _ hc).trans (if_pos ((condHolds_iff x).2 hx))

theorem exec_jt_zero (hc : val s c = .ok 0) : exec (.jt c g) s = .next (s.withStatus .run) :=
  orRaise_ok s _ hc

theorem exec_jf_nonzero (hc : val s c = .ok x) (hx : x ≠ 0) : exec (.jf c g) s = .next (s.withStatus .run) :=
  (orRaise_ok s _ hc).trans (if_pos ((condHolds_iff x).2 hx))

theorem exec_jf_zero (hc : val s c = .ok 0) : exec (.jf c g) s = orRaise (jumpTo s g) s proceed :=
  orRaise_ok s _ hc

end

/-! ### `call` and `ret` -/

/-- `call` of a target that resolves (R84). -/
theorem exec_call {s : State} {g a : Word} (hg : val s g = .ok a) :
    exec (.call g) s = .next (((stackPush s s.pc).withPc a).withStatus .run) :=
  orRaise_ok s _ hg

/-- A `call` that leaves status `RUN` has pushed the advanced `pc` and jumped. -/
theorem exec_call_completed {s t : State} {g : Word} (h : exec (.call g) s = .next t) (hrun : t.status = .run) :
    ∃ a, val s g = .ok a ∧ t = ((stackPush s s.pc).withPc a).withStatus .run := by
  obtain ⟨c, rfl⟩ | heff := exec_cases h
  · cases hrun
  · exact heff

/-- `ret` with a word on the stack (R85). -/
theorem exec_ret {s : State} {w : Word} {rest : List Word} (hs : s.stack = w :: rest) :
    exec .ret s = .next (((s.withStack rest).withPc w).withStatus .run) :=
  orRaise_ok s _ (stackPop_cons s hs)

/-- `ret` with an empty stack (R85, R109). -/
theorem exec_ret_empty {s : State} (hs : s.stack = []) : exec .ret s = .next (faulted s .emptyStack 0) :=
  orRaise_error s _ (stackPop_nil s hs)

/-! ### `halt` -/

/-- An instruction without operands stands at `pc` as soon as its opcode word does. -/
theorem standsAtPc_of_no_operands {s : State} {i : Instr} (hi : i.operands = []) (hpc : s.pc.toNat ≤ 32767)
    (hw : s.memory.read s.pc.toNat = i.opcode.number) : StandsAtPc s i := by
  have henc : encode i = [i.opcode.number] := by rw [encode, hi]
  rw [StandsAtPc, henc, List.length_singleton]
  refine ⟨by omega, fun k hk => ?_⟩
  obtain rfl : k = 0 := by omega
  exact congrArg some hw.symm

/-- The step at a zero word (R36, R80). -/
theorem step_halt {s : State} (hs : Admitted s) (hpc : s.pc.toNat ≤ 32767) (hw : s.memory.read s.pc.toNat = 0) :
    step s = .next ((entered s .halt).withStatus .halted) :=
  stepRunsTheInstructionAtPc s .halt hs (standsAtPc_of_no_operands rfl hpc hw)

/-! ### The obligations -/

/-- Settles O40: the completed `call` left the advanced `pc` on top of the stack, where the `ret` finds it. -/
theorem callThenRetReturns : Obligations.CallThenRetReturns := by
  intro s t g h hrun p
  obtain ⟨a, -, rfl⟩ := exec_call_completed h hrun
  exact exec_ret rfl

/-- Settles O34: the zero word at `pc` is a `halt` that stands there, and the gate stops every step after it. -/
theorem haltHalts : Obligations.HaltHalts := by
  refine ⟨rfl, fun s => rfl, fun s hs hpc hw => ⟨_, step_halt hs hpc hw, rfl, BitVec.add_zero _, fun u hu => ?_⟩⟩
  obtain ⟨-, hstuck, -⟩ := stepExistsExactlyWhenAdmitted ((entered s .halt).withStatus .halted)
  rw [hstuck rfl] at hu
  cases hu

/-- Settles O35, by the two cases of the jump; under R11 what a target resolves to is a literal. -/
theorem jmpSetsPc : Obligations.JmpSetsPc := by
  intro s g
  simp only [resolves_iff]
  exact ⟨rfl, fun a => jump_resolved, fun a => val_ok_le, jump_invalid⟩

/-- Settles O36: a non-zero condition makes `jt` the jump, a zero one completes it before the target is read. -/
theorem jtJumpsIfNonZero : Obligations.JtJumpsIfNonZero := by
  intro s c g
  simp only [resolves_iff]
  exact ⟨rfl, fun x a hc hx hg => (exec_jt_nonzero g hc hx).trans (jump_resolved hg), exec_jt_zero g,
    orRaise_val_invalid _, fun x hc hx hg => (exec_jt_nonzero g hc hx).trans (jump_invalid hg)⟩

/-- Settles O37: a zero condition makes `jf` the jump, a non-zero one completes it before the target is read. -/
theorem jfJumpsIfZero : Obligations.JfJumpsIfZero := by
  intro s c g
  simp only [resolves_iff]
  exact ⟨rfl, fun a hc hg => (exec_jf_zero g hc).trans (jump_resolved hg), fun x => exec_jf_nonzero g,
    orRaise_val_invalid _, fun hc hg => (exec_jf_zero g hc).trans (jump_invalid hg)⟩

/-- Settles O38: the target is resolved before anything is pushed, so an invalid one leaves the stack as it was. -/
theorem callPushesAdvancedPcAndJumps : Obligations.CallPushesAdvancedPcAndJumps := by
  intro s g
  simp only [resolves_iff]
  exact ⟨rfl, fun a => exec_call, orRaise_val_invalid _⟩

/-- Settles O39: the popped word is `pc` as it is, so a popped 32768 is past memory, where the fetch faults (R61). -/
theorem retPopsIntoPc : Obligations.RetPopsIntoPc := by
  refine ⟨rfl, fun s => ⟨fun w rest => exec_ret, exec_ret_empty, fun rest hs => ⟨_, exec_ret hs, rfl, ?_⟩⟩⟩
  obtain ⟨houtside, -⟩ := fetchStageFaults (((s.withStack rest).withPc 32768).withStatus .run) (.inl rfl)
  exact houtside (Nat.le_refl 32768)

end Sys2Proof.Machine
end

section
/-! SUPPORT. Proofs of the stack and memory family: what each of `push`, `pop`, `set`, `rmem` and `wmem` does, an equation
per case of its operands. -/

namespace Sys2Proof.Machine

/-! ### The register write an instruction ends in (R68, R71): made in `u`, its faults taken in `s` -/

section
variable {s u : State} {d w : Word} {k : Fin 8}

theorem write_resolved {v : Word} (hd : NamesReg d k) (hw : val u w = .ok v) :
    orRaise (writeReg u d w) s proceed = .next ((u.withReg k v).withStatus .run) := by
  rw [orRaise_ok s proceed (writeReg_val u (isReg_of_namesReg hd) hw), regIdx_of_namesReg hd]
  rfl

theorem write_notReg (hd : NotReg d) :
    orRaise (writeReg u d w) s proceed = .next (faulted s .invalidRegister d) :=
  orRaise_error s proceed (writeReg_notReg u w ((not_isReg_iff d).2 hd))

theorem write_invalid (hd : NamesReg d k) (hw : InvalidWord w) :
    orRaise (writeReg u d w) s proceed = .next (faulted s .invalidOperand w) :=
  orRaise_error s proceed (writeReg_valError u (isReg_of_namesReg hd) (val_of_invalidWord u hw))

end

/-! ### Memory past its last word (R31), and the operand checks of `WriteMem` (R75) -/

theorem memRead_outside (s : State) {a : Word} (h : 32767 < a.toNat) :
    memRead s a.toNat = .error ⟨.invalidAddress, a⟩ := by
  rw [memRead, if_pos h, BitVec.ofNat_toNat, BitVec.setWidth_eq]

theorem memWrite_outside (s : State) {a : Word} (x : Word) (h : 32767 < a.toNat) :
    memWrite s a.toNat x = .error ⟨.invalidAddress, a⟩ := by
  rw [memWrite, if_pos h, BitVec.ofNat_toNat, BitVec.setWidth_eq]

theorem writeMem_addressError (s : State) {wa : Word} {c : FaultCause} (wv : Word) (ha : val s wa = .error c) :
    writeMem s wa wv = .error c := by
  simp only [writeMem, ha]

theorem writeMem_valueError (s : State) {wa wv a : Word} {c : FaultCause} (ha : val s wa = .ok a)
    (hv : val s wv = .error c) : writeMem s wa wv = .error c := by
  simp only [writeMem, ha, hv]

/-! ### `pop`, `rmem` and `wmem` -/

/-- With a word on the stack `pop` is the write of that word, in the state without it (R87). -/
theorem exec_pop_cons {s : State} {w : Word} {rest : List Word} (d : Word) (hs : s.stack = w :: rest) :
    exec (.pop d) s = orRaise (writeReg (s.withStack rest) d w) s proceed :=
  orRaise_ok s _ (stackPop_cons s hs)

/-- `pop` with an empty stack, whatever the destination (R87, R109). -/
theorem exec_pop_empty {s : State} (d : Word) (hs : s.stack = []) :
    exec (.pop d) s = .next (faulted s .emptyStack 0) :=
  orRaise_error s _ (stackPop_nil s hs)

section
variable {s : State} {p a : Word}

/-- `rmem` of an address inside memory is the write of the word there (R89). -/
theorem exec_rmem_inside (d : Word) (hp : val s p = .ok a) (ha : a.toNat ≤ 32767) :
    exec (.rmem d p) s = orRaise (writeReg s d (s.memory.read a.toNat)) s proceed :=
  orRaise_ok s _ ((readMem_val s hp).trans (memRead_inside s ha))

/-- `rmem` of an address past memory, whatever the destination (R31). -/
theorem exec_rmem_outside (d : Word) (hp : val s p = .ok a) (ha : 32767 < a.toNat) :
    exec (.rmem d p) s = .next (faulted s .invalidAddress a) :=
  orRaise_error s _ ((readMem_val s hp).trans (memRead_outside s ha))

theorem exec_rmem_invalid (d : Word) (hp : InvalidWord p) :
    exec (.rmem d p) s = .next (faulted s .invalidOperand p) :=
  orRaise_error s _ (readMem_valError s (val_of_invalidWord s hp))

/-- `wmem` at an address past memory, once both operands resolve (R31, R75). -/
theorem exec_wmem_outside {v x : Word} (hp : val s p = .ok a) (hv : val s v = .ok x) (ha : 32767 < a.toNat) :
    exec (.wmem p v) s = .next (faulted s .invalidAddress a) :=
  orRaise_error s proceed ((writeMem_val s hp hv).trans (memWrite_outside s x ha))

theorem exec_wmem_invalid_address (v : Word) (hp : InvalidWord p) :
    exec (.wmem p v) s = .next (faulted s .invalidOperand p) :=
  orRaise_error s proceed (writeMem_addressError s v (val_of_invalidWord s hp))

theorem exec_wmem_invalid_value {v : Word} (hp : val s p = .ok a) (hv : InvalidWord v) :
    exec (.wmem p v) s = .next (faulted s .invalidOperand v) :=
  orRaise_error s proceed (writeMem_valueError s hp (val_of_invalidWord s hv))

end

/-! ### The obligations -/

/-- Settles O41: an operand that resolves is pushed; under R11 it is a literal; an invalid one faults before the push. -/
theorem pushPushesTheResolvedValue : Obligations.PushPushesTheResolvedValue := by
  intro s v
  simp only [resolves_iff]
  exact ⟨rfl, fun x => exec_push, fun x => val_ok_le, orRaise_val_invalid _⟩

/-- Settles O42: the stack is looked at before the destination, and the register write resolves the popped word. -/
theorem popStoresTheTop : Obligations.PopStoresTheTop := by
  intro s d
  simp only [resolves_iff]
  refine ⟨rfl, fun w rest v k hs hd hw => exec_pop hs hd hw, exec_pop_empty d, fun hne hd => ?_⟩
  obtain ⟨w, rest, hs⟩ := List.exists_cons_of_ne_nil hne
  exact (exec_pop_cons d hs).trans (write_notReg hd)

/-- Settles O43: `set` is the register write itself, which checks the destination before it resolves the value. -/
theorem setStoresTheResolvedValue : Obligations.SetStoresTheResolvedValue := by
  intro s d v
  simp only [resolves_iff]
  exact ⟨rfl, fun x k => write_resolved, fun x => val_ok_le, write_notReg, fun k => write_invalid⟩

/-- Settles O44: an address inside memory makes `rmem` the register write of the word there; an invalid address operand
and an address past memory fault before the destination is looked at. -/
theorem rmemStoresTheResolvedMemoryWord : Obligations.RmemStoresTheResolvedMemoryWord := by
  intro s d p
  simp only [resolves_iff]
  exact ⟨rfl, fun addr v k hp ha hd hv => exec_rmem hd hp ha hv, exec_rmem_invalid d,
    fun addr hp ha hd => (exec_rmem_inside d hp ha).trans (write_notReg hd),
    fun addr k hp ha hd hw => (exec_rmem_inside d hp ha).trans (write_invalid hd hw),
    fun addr => exec_rmem_outside d⟩

/-- Settles O45: both operands are resolved, the address first, before the bound check; the store is read back by
`Memory.read_write`. -/
theorem wmemStoresTheResolvedValue : Obligations.WmemStoresTheResolvedValue := by
  intro s p v
  simp only [resolves_iff]
  exact ⟨rfl,
    fun addr x hp ha hv =>
      ⟨exec_wmem hp hv ha, fun a => Memory.read_write s.memory addr.toNat a x, fun hr => val_ok_le hr hv⟩,
    exec_wmem_invalid_address v, fun addr => exec_wmem_invalid_value,
    fun addr x hp ha hv => exec_wmem_outside hp hv ha⟩

end Sys2Proof.Machine
end

section
/-! SUPPORT. Proofs of the arithmetic family: the rule that the three-operand instructions share, from what each computes
of two words, and what `mod` and `not` do, an equation per case of their operands. -/

namespace Sys2Proof.Machine

/-! ### The computed words, on plain numbers (R92, R96 to R98) -/

theorem andWord_eq_ofNat (x y : Word) : andWord x y = BitVec.ofNat 16 (x.toNat &&& y.toNat) := by
  rw [BitVec.ofNat_and, BitVec.ofNat_toNat, BitVec.ofNat_toNat, BitVec.setWidth_eq, BitVec.setWidth_eq, andWord]

theorem orWord_eq_ofNat (x y : Word) : orWord x y = BitVec.ofNat 16 (x.toNat ||| y.toNat) := by
  rw [BitVec.ofNat_or, BitVec.ofNat_toNat, BitVec.ofNat_toNat, BitVec.setWidth_eq, BitVec.setWidth_eq, orWord]

/-- Masking with 0x7FFF is reduction modulo 2^15, and complementing subtracts from all ones. -/
theorem notWord_toNat (x : Word) : (notWord x).toNat = 32767 - x.toNat % 32768 := by
  have hmask : (notWord x).toNat = (65535 - x.toNat) % 32768 := by
    rw [notWord, BitVec.toNat_and, BitVec.toNat_not]
    exact Nat.and_two_pow_sub_one_eq_mod (65535 - x.toNat) 15
  have hlt : x.toNat < 65536 := x.isLt
  omega

theorem notWord_eq_ofNat (x : Word) : notWord x = BitVec.ofNat 16 (32767 - x.toNat % 32768) := by
  rw [← notWord_toNat, BitVec.ofNat_toNat, BitVec.setWidth_eq]

/-- The 15-bit complement is its own inverse on resolved values. -/
theorem notWord_notWord {x : Word} (hx : x.toNat ≤ 32767) : notWord (notWord x) = x := by
  apply BitVec.eq_of_toNat_eq
  rw [notWord_toNat, notWord_toNat]
  omega

/-! ### The two source operands that the three-operand instructions resolve first (R69) -/

section
variable {s : State} {x y a b : Word} (k : Word → Word → Result)

theorem sources_resolved (hx : val s x = .ok a) (hy : val s y = .ok b) :
    (orRaise (val s x) s fun a => orRaise (val s y) s (k a)) = k a b :=
  (orRaise_ok s _ hx).trans (orRaise_ok s _ hy)

theorem sources_second_invalid (hx : val s x = .ok a) (hy : InvalidWord y) :
    (orRaise (val s x) s fun a => orRaise (val s y) s (k a)) = .next (faulted s .invalidOperand y) :=
  (orRaise_ok s _ hx).trans (orRaise_val_invalid _ hy)

end

/-- An instruction that writes the word `g` of its two sources obeys `BinaryRule` for the number function `f` that `g`
computes, as soon as `pre` makes that word a literal, which `WriteReg` then stores as it is (R71). -/
theorem binaryRule_of_writeBinary {mk : Word → Word → Word → Instr} {number : Word} {f : Nat → Nat → Nat}
    {pre : State → Prop} (g : Word → Word → Word)
    (hencode : ∀ d x y, encode (mk d x y) = [number, d, x, y])
    (hexec : ∀ d x y s, exec (mk d x y) s = writeBinary g d x y s)
    (hword : ∀ a b, g a b = BitVec.ofNat 16 (f a.toNat b.toNat))
    (hliteral : ∀ {s x y a b}, pre s → val s x = .ok a → val s y = .ok b → (g a b).toNat ≤ 32767) :
    BinaryRule mk number f pre := by
  intro s d x y
  simp only [resolves_iff, hexec]
  refine ⟨hencode d x y, fun a b k hpre hx hy hd => ?_, orRaise_val_invalid _, fun a => sources_second_invalid _,
    fun a b hx hy hd => (sources_resolved _ hx hy).trans (write_notReg hd)⟩
  rw [← hword]
  exact (sources_resolved _ hx hy).trans (write_resolved hd (val_lit s (hliteral hpre hx hy)))

/-! ### `mod` and `not` -/

section
variable {s : State} {x y a b : Word} (d : Word)

/-- `mod` of sources that resolve, by a divisor that is not 0, is the write of the remainder (R95). -/
theorem exec_mod_nonzero (hx : val s x = .ok a) (hy : val s y = .ok b) (hb : b ≠ 0) :
    exec (.mod d x y) s = orRaise (writeReg s d (BitVec.ofNat 16 (a.toNat % b.toNat))) s proceed :=
  (sources_resolved _ hx hy).trans (orRaise_ok s _ (modWord_nonzero a hb))

/-- `mod` by 0, whatever the dividend and the destination (R95, R110). -/
theorem exec_mod_zero (hx : val s x = .ok a) (hy : val s y = .ok 0) :
    exec (.mod d x y) s = .next (faulted s .arithmeticFault 0) :=
  (sources_resolved _ hx hy).trans (orRaise_error s _ (modWord_zero a))

/-- `not` of a source that resolves is the write of its complement (R98). -/
theorem exec_not (hx : val s x = .ok a) :
    exec (.not d x) s = orRaise (writeReg s d (notWord a)) s proceed :=
  orRaise_ok s _ hx

end

/-- `not` of a source that resolves, into a register: the complement is a literal, so it is stored as it is. -/
theorem exec_not_reg {s : State} {d x a : Word} {k : Fin 8} (hd : NamesReg d k) (hx : val s x = .ok a) :
    exec (.not d x) s = .next ((s.withReg k (notWord a)).withStatus .run) :=
  (exec_not d hx).trans (write_resolved hd (val_lit s (notWord_le a)))

/-! ### The obligations -/

/-- Settles O53: the second `not` resolves its source to the complement that the first one left in register `j`, and
complementing twice is the identity on what resolves under R11. -/
theorem notTwiceIsIdentity : Obligations.NotTwiceIsIdentity := by
  intro s t u d e x a j k hregs hx hd he ht hu
  rw [resolves_iff] at hx
  rw [exec_not_reg hd hx] at ht
  cases ht
  have hsource : val ((s.withReg j (notWord a)).withStatus .run) d = .ok (notWord a) :=
    (resolves_iff ..).1 (.inr ⟨j, hd, by simp⟩)
  rw [exec_not_reg he hsource] at hu
  cases hu
  rw [State.withStatus_reg, State.withReg_reg_same, notWord_notWord (val_ok_le hregs hx)]

/-- Settles O47: the reduced sum is a literal whatever the sources. -/
theorem addWritesTheSumModulo32768 : Obligations.AddWritesTheSumModulo32768 :=
  binaryRule_of_writeBinary addWord (fun _ _ _ => rfl) (fun _ _ _ _ => rfl) (fun _ _ => rfl)
    fun _ _ _ => addWord_le _ _

/-- Settles O48: the reduced product is a literal whatever the sources. -/
theorem mulWritesTheProductModulo32768 : Obligations.MulWritesTheProductModulo32768 :=
  binaryRule_of_writeBinary mulWord (fun _ _ _ => rfl) (fun _ _ _ _ => rfl) (fun _ _ => rfl)
    fun _ _ _ => mulWord_le _ _

/-- Settles O49: the zero divisor faults between the sources and the destination; any other divisor leaves the write of
the remainder, which under R11 is a literal since it is at most the dividend. -/
theorem modWritesTheRemainder : Obligations.ModWritesTheRemainder := by
  intro s d x y
  simp only [resolves_iff]
  refine ⟨rfl, fun a b k hregs hx hy hb hd => ?_, orRaise_val_invalid _, fun a => sources_second_invalid _,
    fun a => exec_mod_zero d, fun a b hx hy hb hd => (exec_mod_nonzero d hx hy hb).trans (write_notReg hd)⟩
  have hliteral := modWord_le (val_ok_le hregs hx) (modWord_nonzero a hb)
  exact (exec_mod_nonzero d hx hy hb).trans (write_resolved hd (val_lit s hliteral))

/-- Settles O50: the bitwise and of two words is at most the first, so it is a literal under R11. -/
theorem andWritesTheBitwiseAnd : Obligations.AndWritesTheBitwiseAnd :=
  binaryRule_of_writeBinary andWord (fun _ _ _ => rfl) (fun _ _ _ _ => rfl) andWord_eq_ofNat
    fun hregs hx _ => andWord_le _ (val_ok_le hregs hx)

/-- Settles O51: the bitwise or of two words below 2^15 is below 2^15, so it is a literal under R11. -/
theorem orWritesTheBitwiseOr : Obligations.OrWritesTheBitwiseOr :=
  binaryRule_of_writeBinary orWord (fun _ _ _ => rfl) (fun _ _ _ _ => rfl) orWord_eq_ofNat
    fun hregs hx hy => orWord_le (val_ok_le hregs hx) (val_ok_le hregs hy)

/-- Settles O52: the source is resolved before the destination is looked at, and the word written is the complement. -/
theorem notWritesTheFifteenBitComplement : Obligations.NotWritesTheFifteenBitComplement := by
  intro s d x
  simp only [resolves_iff, ← notWord_eq_ofNat]
  exact ⟨rfl, fun a k hx hd => exec_not_reg hd hx, orRaise_val_invalid _,
    fun a hx hd => (exec_not d hx).trans (write_notReg hd)⟩

end Sys2Proof.Machine
end

section
/-! SUPPORT. Proofs of the comparison family: the words `eq` and `gt` compute, on plain numbers, and the rule they share
with the other three-operand instructions. -/

namespace Sys2Proof.Machine

/-! ### The computed words, on plain numbers (R99, R100) -/

/-- The truth word of a decided proposition is the number 1 or 0. -/
theorem truthWord_decide (p : Prop) [Decidable p] : truthWord (decide p) = BitVec.ofNat 16 (if p then 1 else 0) := by
  by_cases hp : p
  · rw [decide_eq_true hp, if_pos hp]; rfl
  · rw [decide_eq_false hp, if_neg hp]; rfl

/-- Two words are the same word exactly if they are the same number. -/
theorem eqWord_eq_ofNat (x y : Word) : eqWord x y = BitVec.ofNat 16 (if x.toNat = y.toNat then 1 else 0) := by
  have hbeq : (x == y) = decide (x.toNat = y.toNat) := by
    rw [beq_eq_decide]
    exact decide_eq_decide.2 BitVec.toNat_inj.symm
  rw [eqWord, hbeq, truthWord_decide]

theorem gtWord_eq_ofNat (x y : Word) : gtWord x y = BitVec.ofNat 16 (if y.toNat < x.toNat then 1 else 0) :=
  truthWord_decide _

/-! ### The obligations -/

/-- Settles O54: `eq` writes the truth word of equality, a literal whatever the sources. -/
theorem eqWritesEquality : Obligations.EqWritesEquality :=
  binaryRule_of_writeBinary eqWord (fun _ _ _ => rfl) (fun _ _ _ _ => rfl) eqWord_eq_ofNat
    fun _ _ _ => truthWord_le _

/-- Settles O55: `gt` writes the truth word of the unsigned strict order, a literal whatever the sources. -/
theorem gtWritesUnsignedGreater : Obligations.GtWritesUnsignedGreater :=
  binaryRule_of_writeBinary gtWord (fun _ _ _ => rfl) (fun _ _ _ _ => rfl) gtWord_eq_ofNat
    fun _ _ _ => truthWord_le _

end Sys2Proof.Machine
end

section
/-! SUPPORT. Proofs of the input and output family: what each of `out`, `in` and `noop` does, an equation per case of
its operand and the input queue, and the step of a blocked `in`. -/

namespace Sys2Proof.Machine

/-! ### A byte in a word and the low byte of a word, on plain numbers (R101, R102) -/

theorem lowByte_eq_ofNat (x : Word) : x.setWidth 8 = BitVec.ofNat 8 (x.toNat % 256) := by
  apply BitVec.eq_of_toNat_eq
  rw [BitVec.toNat_setWidth, BitVec.toNat_ofNat]
  omega

/-- A zero-extended byte is a literal, so `WriteReg` stores it as it is (R71). -/
theorem val_byte (s : State) (b : Byte) : val s (b.setWidth 16) = .ok (BitVec.ofNat 16 b.toNat) := by
  rw [BitVec.ofNat_toNat]
  refine val_lit s ?_
  rw [BitVec.toNat_setWidth]
  omega

/-! ### `out` and `in` -/

/-- `out` of an operand that resolves (R101). -/
theorem exec_out {s : State} {v x : Word} (hv : val s v = .ok x) :
    exec (.out v) s = .next ((enqueueOutput s (x.setWidth 8)).withStatus .run) :=
  orRaise_ok s _ hv

section
variable {s : State} (d : Word)

/-- `in` with an empty queue, whatever the destination (R102). -/
theorem exec_in_empty (hq : s.inq = []) :
    exec (.in_ d) s = .next ((s.withPc (s.pc - 2)).withStatus .waitInput) := by
  simp only [exec, execIn, dequeueInput, hq]

/-- With a byte queued `in` is the write of that byte, in the state without it (R102). -/
theorem exec_in_cons {b : Byte} {rest : List Byte} (hq : s.inq = b :: rest) :
    exec (.in_ d) s = orRaise (writeReg (s.withInq rest) d (b.setWidth 16)) s proceed := by
  simp only [exec, execIn, dequeueInput, hq]

end

/-- `in` of a queued byte, into a register (R102). -/
theorem exec_in_reg {s : State} {d : Word} {k : Fin 8} {b : Byte} {rest : List Byte} (hq : s.inq = b :: rest)
    (hd : NamesReg d k) :
    exec (.in_ d) s = .next (((s.withInq rest).withReg k (BitVec.ofNat 16 b.toNat)).withStatus .run) :=
  (exec_in_cons d hq).trans (write_resolved hd (val_byte _ b))

/-! ### The step of a blocked `in` (R24, R102) -/

/-- What the step of an `in` with the destination word `d` leaves when it blocks: `s` but for the latch and the trace
entry. -/
def blocked (s : State) (d : Word) : State :=
  { s with
    status := .waitInput
    logSink := s.logSink ++ (if s.traceEnabled then [.trace s.pc 20 [d]] else []) }

/-- Undoing the advance past the two words of an `in` gives back the `pc` before it (R64, R102). -/
theorem entered_in_pc_sub_two (s : State) (d : Word) : (entered s (.in_ d)).pc - 2 = s.pc := by
  change s.pc + 1 + 1 - 2 = s.pc
  bv_omega

theorem step_blocked {s : State} {d : Word} (hs : Admitted s) (hf : fetch s = .ok (.in_ d)) (hq : s.inq = []) :
    step s = .next (blocked s d) := by
  rw [step_of_fetch hs hf, exec_in_empty (s := entered s (.in_ d)) d hq, entered_in_pc_sub_two]
  rfl

/-- Blocking moves neither `pc` nor memory, so after a byte is fed the same `in` is fetched again (R102, R137). -/
theorem fetch_fed_blocked {s : State} {d : Word} (b : Byte) (h : StandsAtPc s (.in_ d)) :
    fetch (enqueueInput (blocked s d) b) = .ok (.in_ d) :=
  fetch_standing h

/-- The step after a byte is fed to an `in` that blocked: the byte goes through the queue into the register. -/
theorem step_fed_blocked {s : State} {d : Word} {k : Fin 8} (b : Byte) (h : StandsAtPc s (.in_ d)) (hq : s.inq = [])
    (hd : NamesReg d k) :
    step (enqueueInput (blocked s d) b) =
      .next ((((entered (enqueueInput (blocked s d) b) (.in_ d)).withInq []).withReg k
        (BitVec.ofNat 16 b.toNat)).withStatus .run) := by
  have hqueue : (entered (enqueueInput (blocked s d) b) (.in_ d)).inq = [b] := congrArg (· ++ [b]) hq
  rw [step_of_fetch (.inr rfl) (fetch_fed_blocked b h), exec_in_reg hqueue hd]

/-! ### `noop` -/

/-- With tracing off entering an instruction is the provisional advance alone (R64, R65). -/
theorem entered_of_untraced {s : State} (i : Instr) (htrace : s.traceEnabled = false) :
    entered s i = s.withPc (nextPc i s.pc) := by
  rw [← enter_eq_entered, enter, htrace]
  rfl

/-- The step at a `noop` word with tracing off (R103). -/
theorem step_noop {s : State} (hs : Admitted s) (hpc : s.pc.toNat ≤ 32767) (hw : s.memory.read s.pc.toNat = 21)
    (htrace : s.traceEnabled = false) : step s = .next ((s.withPc (s.pc + 1)).withStatus .run) := by
  rw [stepRunsTheInstructionAtPc s .noop hs (standsAtPc_of_no_operands rfl hpc hw), entered_of_untraced _ htrace]
  have hnext : nextPc .noop s.pc = s.pc + 1 := BitVec.add_zero _
  rw [hnext]
  rfl

/-! ### The obligations -/

/-- Settles O12: only an `in` that finds the queue empty leaves `WAIT_INPUT`, and its step is `step_blocked`. -/
theorem blockedInChangesNothing : Obligations.BlockedInChangesNothing := by
  intro s t h hwait
  obtain ⟨hs, ⟨c, -, rfl⟩ | ⟨i, hf, hx⟩⟩ := step_cases h
  · cases hwait
  obtain ⟨-, hstatus⟩ | ⟨⟨⟨d, rfl⟩, hq⟩, -⟩ | ⟨-, -, hstatus | hstatus⟩ := exec_status hx
  · cases hwait.symm.trans hstatus
  · rw [step_blocked hs hf (by simpa using hq)] at h
    cases h
    exact ⟨d, rfl⟩
  · cases hwait.symm.trans hstatus
  · cases hwait.symm.trans hstatus

/-- Settles O13: the blocked state still stands at the `in`, and the step after the feed takes the byte fed. -/
theorem fedInCompletesOnce : Obligations.FedInCompletesOnce := by
  intro s t d k b hs hstands hq hd h
  rw [step_blocked hs (fetch_standing hstands) hq] at h
  cases h
  refine ⟨_, _, rfl, step_fed_blocked b hstands hq hd, State.withReg_reg_same _ k _,
    fun j hj => State.withReg_reg_ne _ _ hj, rfl, ?_, rfl, rfl, rfl, rfl⟩
  change s.pc + 1 + 1 = s.pc + 2
  bv_omega

/-- Settles O56: an operand that resolves gives its low byte; an invalid one faults before anything is queued. -/
theorem outQueuesTheLowByte : Obligations.OutQueuesTheLowByte := by
  intro s v
  simp only [resolves_iff, ← lowByte_eq_ofNat]
  exact ⟨rfl, fun x => exec_out, orRaise_val_invalid _⟩

/-- Settles O57: the queue is looked at before the destination, and a refused destination leaves the queue. -/
theorem inReadsOneByteOrBlocks : Obligations.InReadsOneByteOrBlocks := by
  intro s d
  refine ⟨rfl, fun b rest k => exec_in_reg, exec_in_empty d, fun hne hd => ?_⟩
  obtain ⟨b, rest, hq⟩ := List.exists_cons_of_ne_nil hne
  exact (exec_in_cons d hq).trans (write_notReg hd)

/-- Settles O58: the word 21 at `pc` is a `noop` that stands there; from 32767 it leaves `pc` past memory, where the
fetch faults (R61). -/
theorem noopOnlyCompletes : Obligations.NoopOnlyCompletes := by
  refine ⟨rfl, fun s => rfl, fun s hs hpc hw htrace => ⟨step_noop hs hpc hw htrace, fun htop t h => ?_⟩⟩
  rw [step_noop hs hpc hw htrace, htop] at h
  cases h
  obtain ⟨houtside, -⟩ := fetchStageFaults ((s.withPc 32768).withStatus .run) (.inl rfl)
  exact houtside (Nat.le_refl 32768)

end Sys2Proof.Machine
end

section
/-! SUPPORT. Proofs of the exceptions family: which instruction raises which fault, what the queue commands and
`set_trace` change, and that nothing but the trace flag and the sink depends on the trace flag and the sink. -/

namespace Sys2Proof.Machine

/-! ### A state seen with another trace flag and another sink (R125) -/

/-- `s` with `trace_enabled = b` and with `l` in the log sink. -/
def State.retraced (s : State) (b : Bool) (l : List LogEntry) : State := { s with traceEnabled := b, logSink := l }

theorem val_retraced (s : State) (b : Bool) (l : List LogEntry) (w : Word) : val (s.retraced b l) w = val s w :=
  val_congr rfl w

theorem writeReg_retraced (s : State) (b : Bool) (l : List LogEntry) (d w : Word) :
    writeReg (s.retraced b l) d w = (writeReg s d w).map (·.retraced b l) := by
  simp only [writeReg, val_retraced]
  split
  · cases val s w <;> rfl
  · rfl

theorem jumpTo_retraced (s : State) (b : Bool) (l : List LogEntry) (w : Word) :
    jumpTo (s.retraced b l) w = (jumpTo s w).map (·.retraced b l) := by
  simp only [jumpTo, val_retraced]
  cases val s w <;> rfl

theorem memWrite_retraced (s : State) (b : Bool) (l : List LogEntry) (a : Nat) (v : Word) :
    memWrite (s.retraced b l) a v = (memWrite s a v).map (·.retraced b l) := by
  simp only [memWrite]
  split <;> rfl

theorem writeMem_retraced (s : State) (b : Bool) (l : List LogEntry) (wa wv : Word) :
    writeMem (s.retraced b l) wa wv = (writeMem s wa wv).map (·.retraced b l) := by
  simp only [writeMem, val_retraced, memWrite_retraced]
  cases val s wa with
  | error c => rfl
  | ok a => cases val s wv <;> rfl

/-- The advance past an instruction does not look at the flag; only its trace entry does (R64, R65). -/
theorem entered_retraced (s : State) (b : Bool) (l : List LogEntry) (i : Instr) :
    ∃ l', entered (s.retraced b l) i = (entered s i).retraced b l' := ⟨_, rfl⟩

/-! ### Results that agree but for the trace flag and the sink -/

/-- If `r` is a next state, `r'` is that state with the trace flag `b` and some sink. -/
def AgreesRetraced (b : Bool) (r r' : Result) : Prop := ∀ t, r = .next t → ∃ l, r' = .next (t.retraced b l)

section
variable {b : Bool}

theorem AgreesRetraced.next (u : State) (l : List LogEntry) : AgreesRetraced b (.next u) (.next (u.retraced b l)) := by
  rintro _ ⟨⟩
  exact ⟨l, rfl⟩

theorem AgreesRetraced.proceed (u : State) (l : List LogEntry) :
    AgreesRetraced b (proceed u) (proceed (u.retraced b l)) := .next (u.withStatus .run) l

/-- Taking a fault appends to the sink and does not read it (R116, R126). -/
theorem AgreesRetraced.takeFault (u : State) (l : List LogEntry) (c : FaultCause) :
    AgreesRetraced b (.next (takeFault u c)) (.next (takeFault (u.retraced b l) c)) :=
  .next (Machine.takeFault u c) (l ++ [.faultLog c.reason c.info])

/-- A check that fails alike and succeeds with corresponding values, and what follows it. -/
theorem AgreesRetraced.orRaise {α β : Type} {r : Except FaultCause α} {r' : Except FaultCause β} {f : α → β}
    {s : State} {l : List LogEntry} {k : α → Result} {k' : β → Result} (hr : r' = r.map f)
    (hk : ∀ v, AgreesRetraced b (k v) (k' (f v))) :
    AgreesRetraced b (orRaise r s k) (orRaise r' (s.retraced b l) k') := by
  subst hr
  cases r with
  | error c => exact .takeFault s l c
  | ok v => exact hk v

/-- A check that does not depend on the flag and the sink at all. -/
theorem AgreesRetraced.check {α : Type} {r : Except FaultCause α} {s : State} {l : List LogEntry} {k k' : α → Result}
    (hk : ∀ v, AgreesRetraced b (k v) (k' v)) : AgreesRetraced b (Machine.orRaise r s k)
      (Machine.orRaise r (s.retraced b l) k') :=
  .orRaise (f := id) (by cases r <;> rfl) hk

/-- The closing update of an instruction: `r'` answers what `r` answers, with the other flag and sink. -/
theorem AgreesRetraced.finish {r r' : Except FaultCause State} {s : State} {l m : List LogEntry}
    (hr : r' = r.map (·.retraced b m)) : AgreesRetraced b (Machine.orRaise r s Machine.proceed)
      (Machine.orRaise r' (s.retraced b l) Machine.proceed) :=
  .orRaise hr fun u => .proceed u m

theorem AgreesRetraced.write {s u : State} {l : List LogEntry} (d w : Word) :
    AgreesRetraced b (Machine.orRaise (writeReg u d w) s Machine.proceed)
      (Machine.orRaise (writeReg (u.retraced b l) d w) (s.retraced b l) Machine.proceed) :=
  .finish (writeReg_retraced u b l d w)

theorem AgreesRetraced.jump {s : State} {l : List LogEntry} (g : Word) :
    AgreesRetraced b (Machine.orRaise (jumpTo s g) s Machine.proceed)
      (Machine.orRaise (jumpTo (s.retraced b l) g) (s.retraced b l) Machine.proceed) :=
  .finish (jumpTo_retraced s b l g)

theorem AgreesRetraced.writeBinary {f : Word → Word → Word} {s : State} {l : List LogEntry} (d x y : Word) :
    AgreesRetraced b (writeBinary f d x y s) (writeBinary f d x y (s.retraced b l)) :=
  .check fun _ => .check fun _ => .write d _

end

/-- NO INSTRUCTION'S MEANING LOOKS at the trace flag or the sink. -/
theorem exec_retraced (i : Instr) (s : State) (b : Bool) (l : List LogEntry) :
    AgreesRetraced b (exec i s) (exec i (s.retraced b l)) := by
  cases i with
  | halt => exact .next (s.withStatus .halted) l
  | noop => exact .proceed s l
  | set d v => exact .write d v
  | eq d x y | gt d x y | add d x y | mul d x y | and d x y | or d x y => exact .writeBinary d x y
  | mod d x y => exact .check fun _ => .check fun _ => .check fun _ => .write d _
  | not d x => exact .check fun _ => .write d _
  | jmp g => exact .jump g
  | jt c g =>
    refine .check fun x => ?_
    split
    · exact .jump g
    · exact .proceed s l
  | jf c g =>
    refine .check fun x => ?_
    split
    · exact .proceed s l
    · exact .jump g
  | rmem d p => exact .check fun _ => .write d _
  | wmem p v => exact .finish (writeMem_retraced s b l p v)
  | push v => exact .check fun x => .proceed (stackPush s x) l
  | call g => exact .check fun a => .proceed ((stackPush s s.pc).withPc a) l
  | out v => exact .check fun x => .proceed (enqueueOutput s (x.setWidth 8)) l
  | pop d =>
    cases hs : s.stack with
    | nil =>
      rw [exec_pop_empty d hs, exec_pop_empty (s := s.retraced b l) d hs]
      exact .takeFault s l ⟨.emptyStack, 0⟩
    | cons w rest =>
      rw [exec_pop_cons d hs, exec_pop_cons (s := s.retraced b l) d hs]
      exact .write (u := s.withStack rest) d w
  | ret =>
    cases hs : s.stack with
    | nil =>
      rw [exec_ret_empty hs, exec_ret_empty (s := s.retraced b l) hs]
      exact .takeFault s l ⟨.emptyStack, 0⟩
    | cons w rest =>
      rw [exec_ret hs, exec_ret (s := s.retraced b l) hs]
      exact .proceed ((s.withStack rest).withPc w) l
  | in_ d =>
    cases hq : s.inq with
    | nil =>
      rw [exec_in_empty d hq, exec_in_empty (s := s.retraced b l) d hq]
      exact .next ((s.withPc (s.pc - 2)).withStatus .waitInput) l
    | cons x rest =>
      rw [exec_in_cons d hq, exec_in_cons (s := s.retraced b l) d hq]
      exact .write (u := s.withInq rest) d (x.setWidth 16)

/-- Nor does the step: admission and fetch read the status, `pc` and memory alone. -/
theorem step_retraced (s : State) (b : Bool) (l : List LogEntry) :
    AgreesRetraced b (step s) (step (s.retraced b l)) := by
  intro t h
  obtain ⟨hs, ⟨c, hf, rfl⟩ | ⟨i, hf, hx⟩⟩ := step_cases h
  · rw [step_of_fetch_error (s := s.retraced b l) hs hf]
    exact AgreesRetraced.takeFault s l c _ rfl
  · obtain ⟨l', hl⟩ := entered_retraced s b l i
    rw [step_of_fetch (s := s.retraced b l) hs hf, hl]
    rw [enter_eq_entered] at hx
    exact exec_retraced i _ b l' t hx

/-! ### Value operands among all operands -/

theorem values_subset_operands (i : Instr) : i.values ⊆ i.operands := by
  cases i <;> simp [Instr.values, Instr.operands]

/-- An instruction with a value operand is none of the five that have none. -/
theorem ne_of_mem_values {i : Instr} {w : Word} (hw : w ∈ i.values) :
    i ≠ .halt ∧ i ≠ .ret ∧ i ≠ .noop ∧ (∀ d, i ≠ .pop d) ∧ ∀ d, i ≠ .in_ d := by
  cases i with
  | halt | ret | noop | pop | in_ => exact absurd hw List.not_mem_nil
  | _ => exact ⟨nofun, nofun, nofun, nofun, nofun⟩

/-! ### The queue commands, where they are admitted (R121 to R123) -/

theorem feedInput_admitted {s : State} (b : Byte) (h : s.status ≠ .unloaded) :
    feedInput b s = .next (enqueueInput s b) := by
  cases hs : s.status with
  | unloaded => exact absurd hs h
  | _ => simp only [feedInput, hs]

theorem drainOutput_admitted {s : State} (h : s.status ≠ .unloaded) :
    drainOutput s = .next (s.outq, s.withOutq []) := by
  cases hs : s.status with
  | unloaded => exact absurd hs h
  | _ => simp only [drainOutput, hs]

/-! ### The obligations -/

/-- Settles O14: admission, fetch and every instruction's meaning answer the same whatever the flag and the sink. -/
theorem tracingIsInvisible : Obligations.TracingIsInvisible :=
  fun s t b l => step_retraced s b l t

/-- Settles O31: each clause is a cause of `MayRaise`; an invalid word is an operand, or the word an `rmem` read. -/
theorem instructionsRaiseOnlyTheirFaults : Obligations.InstructionsRaiseOnlyTheirFaults := by
  intro i s t hinv h hf
  obtain ⟨c, hc, rfl⟩ := exec_raisesOnly i hinv t h hf
  cases hc with
  | emptyStack hi hs => exact .inl ⟨rfl, rfl, hs, hi⟩
  | zeroDivisor hi hy => exact .inr (.inl ⟨rfl, rfl, _, _, _, hi, hy⟩)
  | destination hd hn => exact .inr (.inr (.inl ⟨rfl, hd, hn⟩))
  | operand hw hinvalid =>
    obtain ⟨hhalt, hret, hnoop, hpop, hin⟩ := ne_of_mem_values hw
    exact .inr (.inr (.inr ⟨rfl, hinvalid, hhalt, hret, hnoop, hpop, hin, .inl (values_subset_operands i hw)⟩))
  | memoryWord hi ha hword =>
    subst hi
    exact .inr (.inr (.inr ⟨rfl, hword, nofun, nofun, nofun, nofun, nofun, .inr ⟨_, _, _, rfl, ha, rfl⟩⟩))

/-- Settles O21: where a queue command is admitted it changes its queue alone, and a drained queue drains to nothing. -/
theorem hostCommandsChangeOnlyTheirOwn : Obligations.HostCommandsChangeOnlyTheirOwn := by
  refine fun s => ⟨fun hs => ⟨fun b => feedInput_admitted b hs, drainOutput_admitted hs, ?_⟩, fun b => rfl⟩
  exact drainOutput_admitted (s := s.withOutq []) hs

end Sys2Proof.Machine
end

section
/-! SUPPORT. Proofs of the reset and hazards family: on good data a well-formed instruction raises no fault, so neither
does a run that meets R134 at each step; and reset is a load of the empty image. -/

namespace Sys2Proof.Machine

/-! ### Good data (R134, R48, R89) -/

/-- A word resolves to one value only. -/
theorem Resolves.unique {s : State} {w a b : Word} (ha : Resolves s w a) (hb : Resolves s w b) : a = b := by
  rw [resolves_iff] at ha hb
  exact Except.ok.inj (ha.symm.trans hb)

/-- The advance of `pc` and the trace entry leave the data an instruction works on. -/
theorem onGoodData_entered {i j : Instr} {s : State} (h : OnGoodData i s) : OnGoodData i (entered s j) := h

theorem StateInv.entered {i : Instr} {s : State} (hi : StateInv s) (h : StandsAtPc s i) : StateInv (entered s i) :=
  enter_eq_entered i s ▸ hi.enter (fetch_standing h)

/-- Good data excludes each of the three causes that a well-formed instruction's fault can have. -/
theorem exec_noFault_of_onGoodData {i : Instr} {s t : State} (hi : StateInv s) (hwf : WellFormed i = true)
    (hgood : OnGoodData i s) (h : exec i s = .next t) : t.status ≠ .fault := by
  intro hfault
  obtain ⟨hempty, rfl | ⟨d, rfl⟩⟩ | ⟨d, x, y, rfl, hzero⟩ | ⟨d, p, a, rfl, ha, hinvalid⟩ :=
    wellFormedInstructionsFaultOnlyOnData i s t hi hwf h hfault
  · exact hgood hempty
  · exact hgood hempty
  · exact hgood hzero
  · obtain ⟨b, hb, hvalid⟩ := hgood
    exact hvalid (hb.unique ha ▸ hinvalid)

theorem step_noFault_of_onGoodData {s : State} {i : Instr} (hi : StateInv s) (hs : Admitted s) (hat : StandsAtPc s i)
    (hwf : WellFormed i = true) (hgood : OnGoodData i s) : ∃ t, step s = .next t ∧ t.status ≠ .fault := by
  obtain ⟨t, ht⟩ := answers_exec i (entered s i)
  exact ⟨t, (stepRunsTheInstructionAtPc s i hs hat).trans ht,
    exec_noFault_of_onGoodData (hi.entered hat) hwf (onGoodData_entered hgood) ht⟩

/-! ### Runs (R134, R139) -/

theorem run_succ_of_step_next {s t : State} (k : Nat) (h : step s = .next t) :
    Host.Core.run core (k + 1) s = Host.Core.run core k t := by
  simp only [Host.Core.run, core, h]

theorem run_succ_of_step_fault {s : State} {r : Fault} (k : Nat) (h : step s = .fault r) :
    Host.Core.run core (k + 1) s = .fault r := by
  simp only [Host.Core.run, core, h]

/-- The first step of a safe run that has not ended: it leads, without a fault, to a state from which the rest of the
run is safe. -/
theorem SafeRun.step {n : Nat} {s : State} (hi : StateInv s) (h : SafeRun (n + 1) s) :
    s.status = .halted ∨ ∃ t, step s = .next t ∧ t.status ≠ .fault ∧ StateInv t ∧ SafeRun n t := by
  obtain hhalted | ⟨hs, ⟨i, hat, hwf, hgood⟩, hrest⟩ := (SafeRun_succ n s).1 h
  · exact .inl hhalted
  · obtain ⟨t, ht, hnf⟩ := step_noFault_of_onGoodData hi hs hat hwf hgood
    exact .inr ⟨t, ht, hnf, hi.step ht, hrest t ht⟩

/-- After `k` steps of a safe run of at least `k`: no `FAULT`, or the run had ended with `halt`. -/
theorem SafeRun.noFault {k n : Nat} {s : State} (hi : StateInv s) (hs : s.status ≠ .fault) (h : SafeRun n s)
    (hk : k ≤ n) : (∃ t, Host.Core.run core k s = .next t ∧ t.status ≠ .fault) ∨
      Host.Core.run core k s = .fault Fault.steppedWhenHalted := by
  induction k generalizing n s with
  | zero => exact .inl ⟨s, rfl, hs⟩
  | succ k ih =>
    obtain ⟨n, rfl⟩ : ∃ m, n = m + 1 := ⟨n - 1, by omega⟩
    obtain hhalted | ⟨t, ht, hnf, hit, hrest⟩ := h.step hi
    · have ⟨_, hstuck, _⟩ := stepExistsExactlyWhenAdmitted s
      exact .inr (run_succ_of_step_fault k (hstuck hhalted))
    · rw [run_succ_of_step_next k ht]
      exact ih hit hnf hrest (Nat.le_of_succ_le_succ hk)

/-! ### The obligations -/

/-- Settles O33: good data rules out every fault of the instruction at `pc`; the run is by induction on its steps. -/
theorem safeRunsNeverFault : Obligations.SafeRunsNeverFault :=
  ⟨fun _ _ => step_noFault_of_onGoodData, fun _ _ hi hs h _ => SafeRun.noFault hi hs h⟩

/-- Settles O19: the empty image fits, and the zero word at address 0 is a `halt`. -/
theorem resetIsALoadedMachine : Obligations.ResetIsALoadedMachine := by
  intro s
  rw [load_of_fits s (Nat.zero_le _)]
  obtain ⟨-, -, hhalt⟩ := haltHalts
  obtain ⟨t, ht, hstatus, hpc, -⟩ := hhalt (loadedState [] s) (.inl rfl) (Nat.zero_le _) rfl
  exact ⟨⟨_, _, _, _, rfl⟩, t, ht, hstatus, hpc⟩

end Sys2Proof.Machine
end
